-- ==== Sys2Proof/Word.lean ====
section
/-! DEFINITION. The machine's word types and the width masks of spec/00_scope.md R9 and R10.
`zext(v)` of the spec is `BitVec.toNat`, `sext_16(v)` is `BitVec.toInt`. -/

namespace Sys2Proof

/-- A 16-bit word: a memory word, MBR, IR, GPR, IXR, FR (R6, R9). -/
abbrev Word := BitVec 16

/-- Half a word: the unit in which the model lists memory (log 1). -/
abbrev Byte := BitVec 8

/-- A 12-bit address register: PC, MAR (R6). -/
abbrev AddrReg := BitVec 12

/-- `mask_16(x)`, for any integer `x` (R9). -/
abbrev mask16 (x : Int) : Word := BitVec.ofInt 16 x

/-- `mask_12(x)`, for any integer `x` (R9). -/
abbrev mask12 (x : Int) : AddrReg := BitVec.ofInt 12 x

end Sys2Proof
end

