-- ==== Sys2Proof/Config.lean ====
section
/-! DEFINITION. The parameters the spec fixes (spec/00_scope.md R6). The spec leaves no behaviour that yields
an arbitrary value (spec/93_implementation_defined.md), so there is no free value here. The points the spec
itself decided (R7) are the bodies of definitions under Machine/, each named in the assumption log. -/

namespace Sys2Proof.Config

/-- `MEM_WORDS`: valid word addresses are 0 to 2047 (R6, R50). -/
abbrev memWords : Nat := 2048

/-- `FP_EXP_MIN_ENC`: the least exponent an encode may produce (R6). -/
abbrev fpExpMinEnc : Int := -63

/-- `FP_EXP_MAX_ENC`: the greatest exponent an encode may produce (R6). -/
abbrev fpExpMaxEnc : Int := 63

/-- What an unlisted byte of memory reads as: memory is zero at power-on (R30, R37). -/
abbrev resetByte : Byte := 0

/-- No run is longer than this many cycles (R133). -/
abbrev maxRunCycles : Nat := 2049

end Sys2Proof.Config
end

