-- ==== Sys2Proof/Machine/FloatUnit.lean ====
section
/-! DEFINITION. The floating-point unit: the format, the encoder and the four operations, pure functions of words
(spec/42_floating_point.md R170 to R184). The value of a word is held as the integer `fpScaled` of R174, the value times
2^72, so that all arithmetic is exact (R176, the spec's decision D6, log 8). -/

namespace Sys2Proof.Machine

/-- `s = w[15]` (R170). -/
def fpSign (w : Word) : Bool := w.msb

/-- `xf = w[14:8]` (R170). -/
def fpExpField (w : Word) : Nat := w.toNat / 256 % 128

/-- `m = w[7:0]` (R170). -/
def fpMantissa (w : Word) : Nat := w.toNat % 256

/-- The exponent a field stands for: 7-bit two's complement (R171, C2, log 22). -/
def fpExponent (w : Word) : Int := if fpExpField w < 64 then fpExpField w else (fpExpField w : Int) - 128

/-- `fpScaled(w) = (-1)^s * m * 2^(e + 64)`, the value of the word times 2^72 (R174). -/
def fpScaled (w : Word) : Int :=
  let a : Int := fpMantissa w * 2 ^ (fpExponent w + 64).toNat
  if fpSign w then -a else a

/-- `s*32768 + mask_7(e)*256 + m` (R171, R177). -/
def fpPack (s : Bool) (e : Int) (m : Nat) : Word :=
  BitVec.ofNat 16 (s.toNat * 32768 + (e % 128).toNat * 256 + m)

/-- `clamp(L - 72, -63, 63)` with `L` the number of bits of the magnitude `a > 0` (R178): the bounds stop the
normalisation (D7, D8, logs 9 and 10). -/
def fpEncExponent (a : Nat) : Int :=
  max Config.fpExpMinEnc (min Config.fpExpMaxEnc (((a.log2 + 1 : Nat) : Int) - 72))

/-- `min(255, floor((A + 2^(e+63)) / 2^(e+64)))` (R178): nearest, a tie upward (D9, log 11), no carry into the exponent. -/
def fpEncMantissa (a : Nat) (e : Int) : Nat := min 255 ((a + 2 ^ (e + 63).toNat) / 2 ^ (e + 64).toNat)

/-- The encoder in the integer form of R178: the word of the value `n / 2^72`. Zero is 0x0000 (D10, log 12). -/
def fpEncode (n : Int) : Word :=
  if n = 0 then 0
  else fpPack (n < 0) (fpEncExponent n.natAbs) (fpEncMantissa n.natAbs (fpEncExponent n.natAbs))

/-- `fpAdd(x, y)` (R180): the exact sum, encoded. -/
def fpAdd (x y : Word) : Word := fpEncode (fpScaled x + fpScaled y)

/-- `fpSub(x, y)` (R181): the exact difference, first minus second, encoded. -/
def fpSub (x y : Word) : Word := fpEncode (fpScaled x - fpScaled y)

/-- `intToFp(w)` (R182): the word as a signed integer, encoded. -/
def intToFp (w : Word) : Word := fpEncode (w.toInt * 2 ^ 72)

/-- `fpToInt(w)` (R183): nearest integer, a tie toward plus infinity (D11, log 13), saturated to the signed 16-bit range. -/
def fpToInt (w : Word) : Word :=
  mask16 (max (-32768) (min 32767 ((fpScaled w + 2 ^ 71) / 2 ^ 72)))

end Sys2Proof.Machine
end

