-- ==== Sys2Proof/Syntax.lean ====
section
/-! DEFINITION. The instructions: the ten rows of spec/opcode_table.json (spec/30_encoding.md R86), each with every
field of the one format RXIA (R81), so that no bit of a word is lost. -/

namespace Sys2Proof

/-- The memory operand of format RXIA (R84, R85, R93): `ix` 0 is no indexing, 1 to 3 select `IXR[ix-1]`;
`indirect` is the I bit; `address` is the unsigned 5-bit base. -/
structure MemOperand where
  ix : Fin 4
  indirect : Bool
  address : Fin 32
deriving DecidableEq, Repr

/-- One constructor per row of the opcode table; `r` is the R field (R83). -/
inductive Instr
  /-- HLT, R150 -/
  | hlt (r : Fin 4) (m : MemOperand)
  /-- LDR, R152 -/
  | ldr (r : Fin 4) (m : MemOperand)
  /-- STR, R154 -/
  | str (r : Fin 4) (m : MemOperand)
  /-- FADD, R185 -/
  | fadd (r : Fin 4) (m : MemOperand)
  /-- FSUB, R186 -/
  | fsub (r : Fin 4) (m : MemOperand)
  /-- VADD, R217 -/
  | vadd (r : Fin 4) (m : MemOperand)
  /-- VSUB, R218 -/
  | vsub (r : Fin 4) (m : MemOperand)
  /-- CNVRT, R187: `r` is the direction, not a register number -/
  | cnvrt (r : Fin 4) (m : MemOperand)
  /-- LDFR, R189 -/
  | ldfr (r : Fin 4) (m : MemOperand)
  /-- STFR, R190 -/
  | stfr (r : Fin 4) (m : MemOperand)
deriving DecidableEq, Repr

/-- The R field of an instruction. -/
def Instr.r : Instr → Fin 4
  | .hlt r _ | .ldr r _ | .str r _ | .fadd r _ | .fsub r _ | .vadd r _ | .vsub r _ | .cnvrt r _ | .ldfr r _ | .stfr r _ => r

/-- The memory operand of an instruction. -/
def Instr.mem : Instr → MemOperand
  | .hlt _ m | .ldr _ m | .str _ m | .fadd _ m | .fsub _ m | .vadd _ m | .vsub _ m | .cnvrt _ m | .ldfr _ m | .stfr _ m => m

end Sys2Proof
end

