-- ==== Sys2Proof/WellFormed.lean ====
section
/-! DEFINITION. Which instruction terms have an operand the document defines. The widths of the fields are in the types
of `Instr`; what is left is the reserved operand of spec/30_encoding.md R91 (a). A word with a reserved operand
still decodes (R92) and its meaning is defined (spec/60_exceptions.md R254): it is not well formed, and it runs. -/

namespace Sys2Proof

/-- `true` unless the R field selects a floating register other than FR0 and FR1 (R91 (a)). R91 (b) makes every R of
CNVRT an operand with an effect, and every R of HLT, LDR and STR is legal (R83). -/
def Instr.wellFormed : Instr → Bool
  | .hlt _ _ => true
  | .ldr _ _ => true
  | .str _ _ => true
  | .fadd r _ => r.val < 2
  | .fsub r _ => r.val < 2
  | .vadd r _ => r.val < 2
  | .vsub r _ => r.val < 2
  | .cnvrt _ _ => true
  | .ldfr r _ => r.val < 2
  | .stfr r _ => r.val < 2

end Sys2Proof
end

