-- ==== Sys2Proof/Decode.lean ====
section
/-! DEFINITION. Words to instructions and back, from spec/30_encoding.md R80 to R92. Decoding is total: every word
yields its fields (R82), and the opcode alone selects the row (R87) or none (R90). -/

namespace Sys2Proof

/-- The ten executed operations (R86). -/
inductive Op
  | hlt | ldr | str | fadd | fsub | vadd | vsub | cnvrt | ldfr | stfr
deriving DecidableEq, Repr

/-- The opcode numbers of the table (R86), the one place where they stand. -/
def Op.code : Op → Fin 64
  | .hlt   => 0x00
  | .ldr   => 0x01
  | .str   => 0x02
  | .fadd  => 0x22
  | .fsub  => 0x24
  | .vadd  => 0x25
  | .vsub  => 0x26
  | .cnvrt => 0x27
  | .ldfr  => 0x28
  | .stfr  => 0x29

/-- The rows in the table's order. -/
def Op.all : List Op := [.hlt, .ldr, .str, .fadd, .fsub, .vadd, .vsub, .cnvrt, .ldfr, .stfr]

/-- The row an opcode selects, if any (R87, R90). -/
def Op.ofCode (c : Fin 64) : Option Op := Op.all.find? fun o => o.code == c

/-- The instruction of a row with these operand fields. -/
def Op.instr : Op → Fin 4 → MemOperand → Instr
  | .hlt   => .hlt
  | .ldr   => .ldr
  | .str   => .str
  | .fadd  => .fadd
  | .fsub  => .fsub
  | .vadd  => .vadd
  | .vsub  => .vsub
  | .cnvrt => .cnvrt
  | .ldfr  => .ldfr
  | .stfr  => .stfr

/-- The row of an instruction. -/
def Instr.op : Instr → Op
  | .hlt _ _   => .hlt
  | .ldr _ _   => .ldr
  | .str _ _   => .str
  | .fadd _ _  => .fadd
  | .fsub _ _  => .fsub
  | .vadd _ _  => .vadd
  | .vsub _ _  => .vsub
  | .cnvrt _ _ => .cnvrt
  | .ldfr _ _  => .ldfr
  | .stfr _ _  => .stfr

/-- `opcode = w[15:10]` (R82). -/
def opcodeField (w : Word) : Fin 64 := ⟨w.toNat / 1024, by have := w.isLt; omega⟩

/-- `R = w[9:8]` (R82). -/
def rField (w : Word) : Fin 4 := ⟨w.toNat / 256 % 4, by omega⟩

/-- `IX = w[7:6]`, `I = w[5]`, `address = w[4:0]` (R82). -/
def operandField (w : Word) : MemOperand where
  ix := ⟨w.toNat / 64 % 4, by omega⟩
  indirect := w.toNat / 32 % 2 == 1
  address := ⟨w.toNat % 32, by omega⟩

/-- What the dispatch makes of a word (R87, R129): one of the ten instructions, or an unknown opcode by its number. -/
inductive Decoded
  | instr (i : Instr)
  | unknownOpcode (op : Fin 64)
deriving DecidableEq, Repr

/-- Decode (R82, R87, R123): total, and the opcode alone selects. -/
def decodeWord (w : Word) : Decoded :=
  match Op.ofCode (opcodeField w) with
  | some o => .instr (o.instr (rField w) (operandField w))
  | none => .unknownOpcode (opcodeField w)

/-- `encode(opcode, R, IX, I, address)` (R82). -/
def encodeFields (c : Fin 64) (r : Fin 4) (m : MemOperand) : Word :=
  BitVec.ofNat 16 (c.val * 1024 + r.val * 256 + m.ix.val * 64 + m.indirect.toNat * 32 + m.address.val)

/-- The word of an instruction. -/
def encode (i : Instr) : Word := encodeFields i.op.code i.r i.mem

/-- A word from the byte at its lower and the byte at its higher byte address. DESIGN CHOICE (log 1): the less
significant byte lies lower; spec/20_memory.md R57 leaves the order to the model, since nothing observes it. -/
def wordOfBytes (lo hi : Byte) : Word := hi ++ lo

/-- Bits 7 to 0 of a word. -/
def loByte (w : Word) : Byte := w.extractLsb' 0 8

/-- Bits 15 to 8 of a word. -/
def hiByte (w : Word) : Byte := w.extractLsb' 8 8

/-- The first instruction of a sequence of bytes, laid out as the model's memory lays words out; `none` when there is no
whole word to decode. -/
def decodeBytes : List Byte → Option Decoded
  | lo :: hi :: _ => some (decodeWord (wordOfBytes lo hi))
  | _ => none

/-- The word that an instruction of the opcode table stands for, given as a number of `nbits` bits (R80: one word). -/
def tableWord (nbits w : Nat) : Word := BitVec.ofNat 16 (w % 2 ^ nbits)

/-- The instruction the decoder reads from the table's bits `w`; none where the opcode is unknown or where there are more
bits than an instruction has. -/
def decodeTableWord (nbits w : Nat) : Option Instr :=
  if nbits ≤ 16 then
    match decodeBytes [loByte (tableWord nbits w), hiByte (tableWord nbits w)] with
    | some (.instr i) => some i
    | _ => none
  else none

end Sys2Proof
end

