-- ==== Sys2Proof/Machine/State.lean ====
section
/-! DEFINITION. The state of the block (spec/10_state.md R20, R33), its reset value (R37), and the two types of reasons
a step could stop for. -/

namespace Sys2Proof.Machine

/-- The four events of the diagnostics stream (spec/60_exceptions.md R250, R33). The constructors and what they carry are
the spec's decision D16 (log 2). -/
inductive Diag
  /-- a read at a word address of 2048 or more (R251) -/
  | outOfRangeRead (addr : Nat)
  /-- a write at a word address of 2048 or more (R252) -/
  | outOfRangeWrite (addr : Nat)
  /-- an opcode that is not one of the ten (R253) -/
  | unknownOpcode (op : Fin 64)
  /-- a floating-register selector of 2 or 3, with the instruction word (R254) -/
  | reservedOperand (ir : Word)
deriving DecidableEq, Repr

/-- Memory: the listed bytes, by rising byte address, none of them 0 (`Memory.wf`, Machine/Ops.lean); word `a` is the
bytes `2a` and `2a + 1` (log 1). An unlisted byte reads as 0 (R30, R37). -/
abbrev Memory := List Host.Cell

/-- The whole state of the block (R20), and the stream of R33. -/
structure State where
  /-- the program counter (R22) -/
  pc : AddrReg
  /-- the memory address register (R23) -/
  mar : AddrReg
  /-- the memory buffer register (R24) -/
  mbr : Word
  /-- the instruction register (R25) -/
  ir : Word
  /-- GPR[0..3] (R26) -/
  gpr : Vector Word 4
  /-- IXR[0..2] (R27) -/
  ixr : Vector Word 3
  /-- FR[0..1], FR0 and FR1 (R28) -/
  fr : Vector Word 2
  /-- the halt flag (R29): false is RUNNING, true is HALTED -/
  halted : Bool
  /-- Mem[0..2047] (R30) -/
  mem : Memory
  /-- the diagnostics stream, NEWEST FIRST (log 2); `State.stream` gives it in order of emission -/
  diags : List Diag
deriving DecidableEq, Repr

/-- The diagnostics stream in the order the events were appended (R33). -/
def State.stream (s : State) : List Diag := s.diags.reverse

/-- Reasons to stop with a fault: there are none. Every word has a defined behaviour (spec/30_encoding.md R92), every
operation is total (spec/60_exceptions.md R269), and the two halting events are next states in HALTED. -/
inductive Fault
deriving DecidableEq, Repr

/-- Reasons to refuse. No meaning of this model refuses. -/
inductive Refusal
  /-- raised by an arm of `exec` whose instruction has no meaning yet; none is left. Safe: it stops. -/
  | notModelled (mnemonic : String)
deriving DecidableEq, Repr

/-- What a step or a meaning answers. -/
abbrev Result := Host.Outcome State Fault Refusal

/-- The state after power-on (R37, spec/44_host_operations.md R230). `halted = false` is the spec's decision D19
(log 16); every other value is the document's "created zeroed". -/
def State.reset : State where
  pc := 0
  mar := 0
  mbr := 0
  ir := 0
  gpr := Vector.replicate 4 0
  ixr := Vector.replicate 3 0
  fr := Vector.replicate 2 0
  halted := false
  mem := []
  diags := []

end Sys2Proof.Machine
end

