-- ==== Sys2Proof/Machine/Flags.lean ====
section
/-! DEFINITION. The block has no status flags and no condition codes (spec/10_state.md R31): no instruction computes or
tests one. Its only boolean is the halt flag (R29), and this is the one operation that writes it. -/

namespace Sys2Proof.Machine

/-- `halted <- true` (R29): HLT and the two halting events. Nothing sets it back to false. -/
def State.halt (s : State) : State := { s with halted := true }

end Sys2Proof.Machine
end

