-- ==== Sys2Proof/Machine/Ops.lean ====
section
/-! DEFINITION. The named operations over memory, registers and the diagnostics stream, the fetch step, and the one
operation that raises a halting event (spec/00_scope.md R10). -/

namespace Sys2Proof.Machine

/-! ## Memory as a list of bytes -/

/-- The byte at a byte address; an unlisted one is 0. -/
def Memory.byteAt : Memory → Nat → Byte
  | [], _ => Config.resetByte
  | (k, v) :: rest, a => if k = a then v else Memory.byteAt rest a

/-- The listed bytes without the one at `a`. -/
def Memory.erase (m : Memory) (a : Nat) : Memory := m.filter fun c => c.1 != a

/-- The listed bytes with one more, in its place by address. -/
def Memory.insert : Memory → Nat → Byte → Memory
  | [], a, v => [(a, v)]
  | (k, x) :: rest, a, v => if a < k then (a, v) :: (k, x) :: rest else (k, x) :: Memory.insert rest a v

/-- Store a byte. Storing what an unlisted byte reads as removes the entry, so that equal memories are equal lists. -/
def Memory.setByte (m : Memory) (a : Nat) (v : Byte) : Memory :=
  if v = Config.resetByte then m.erase a else (m.erase a).insert a v

/-- The canonical form: byte addresses strictly rising and inside the 2048 words, no listed byte 0. -/
abbrev Memory.wf (m : Memory) : Prop :=
  m.Pairwise (fun c d => c.1 < d.1) ∧ ∀ c ∈ m, c.1 < 2 * Config.memWords ∧ c.2 ≠ Config.resetByte

/-- The word at a word address: its two bytes (log 1). -/
def Memory.word (m : Memory) (a : Nat) : Word := wordOfBytes (m.byteAt (2 * a)) (m.byteAt (2 * a + 1))

/-- Store the two bytes of a word. -/
def Memory.setWord (m : Memory) (a : Nat) (w : Word) : Memory :=
  (m.setByte (2 * a) (loByte w)).setByte (2 * a + 1) (hiByte w)

/-- The value of a read, fail-soft (spec/20_memory.md R52): 0 outside 0 to 2047. -/
def Memory.read (m : Memory) (a : Nat) : Word := if a < Config.memWords then m.word a else 0

/-- The memory after a write, fail-soft (R53): a write outside 0 to 2047 is dropped. -/
def Memory.write (m : Memory) (a : Nat) (w : Word) : Memory := if a < Config.memWords then m.setWord a w else m

/-! ## The diagnostics stream -/

/-- `diag K(info)` (R10): append one event; no other state changes. -/
def State.emit (s : State) (d : Diag) : State := { s with diags := d :: s.diags }

/-- The event of a read at `a`, if it is out of range (R52, R251). -/
def State.noteRead (s : State) (a : Nat) : State := if a < Config.memWords then s else s.emit (.outOfRangeRead a)

/-- The event of a write at `a`, if it is out of range (R53, R252). -/
def State.noteWrite (s : State) (a : Nat) : State := if a < Config.memWords then s else s.emit (.outOfRangeWrite a)

/-! ## The two primitives -/

/-- `MemRead(addr, 16)` (R52): the value, and the state with the event of an out-of-range read. -/
def memRead (a : Nat) (s : State) : Word × State := (s.mem.read a, s.noteRead a)

/-- `MemWrite(addr, 16, v)` (R53), for a word. -/
def memWrite (a : Nat) (w : Word) (s : State) : State := { s.noteWrite a with mem := s.mem.write a w }

/-! ## Registers -/

/-- `GPR[i] <- w` (R26). -/
def State.setGpr (s : State) (i : Fin 4) (w : Word) : State := { s with gpr := s.gpr.set i.val w i.isLt }

/-- `FR[i] <- w` (R28). -/
def State.setFr (s : State) (i : Fin 2) (w : Word) : State := { s with fr := s.fr.set i.val w i.isLt }

/-- `IXR[i] <- w` (R27): only the host does this (R235). -/
def State.setIxr (s : State) (i : Fin 3) (w : Word) : State := { s with ixr := s.ixr.set i.val w i.isLt }

/-! ## Fetch -/

/-- The fetch step (spec/40_cycle_and_effective_address.md R121): MAR takes PC, MBR and IR take the word read there, PC
advances modulo 4096. A PC of 2048 or more reads 0 with an event (R122). -/
def fetch (s : State) : State :=
  let (w, s') := memRead s.pc.toNat s
  { s' with mar := s.pc, mbr := w, ir := w, pc := s.pc + 1 }

/-! ## Halting events

The block has no trap entry and no trap return (spec/60_exceptions.md R258, R259): nothing is saved and control goes
nowhere. What raising an event does is this one operation. -/

/-- `diag K(info); halted <- true` (R10, R253, R254). -/
def raiseHalting (d : Diag) (s : State) : State := (s.emit d).halt

/-- `raise UnknownOpcode(op)` (R253). -/
def raiseUnknownOpcode (op : Fin 64) (s : State) : State := raiseHalting (.unknownOpcode op) s

/-- `raise ReservedOperand(IR)` (R254, the spec's decision D4, log 6). -/
def raiseReservedOperand (s : State) : State := raiseHalting (.reservedOperand s.ir) s

end Sys2Proof.Machine
end

