-- ==== Sys2Proof/Machine/Operands.lean ====
section
/-! DEFINITION. The one operand form (spec/30_encoding.md R93): the effective address, common to all ten
instructions and to unknown opcodes (spec/40_cycle_and_effective_address.md R126), and the selection of a floating
register by the R field. -/

namespace Sys2Proof.Machine

/-- What indexing adds (R84, R126, R127 (b)): nothing for IX 0, else `IXR[IX-1]` as an unsigned number. -/
def State.indexValue (s : State) (ix : Fin 4) : Nat :=
  if h : ix.val = 0 then 0 else (s.ixr[ix.val - 1]'(by have := ix.isLt; omega)).toNat

/-- The address after indexing and before indirection (R126): a natural number, never reduced (R125, D3, log 5). -/
def State.indexed (s : State) (m : MemOperand) : Nat := m.address.val + s.indexValue m.ix

/-- The effective address (R126): one level of indirection when I is set, all 16 bits of the word (R127 (c), (d)). -/
def State.ea (s : State) (m : MemOperand) : Nat :=
  if m.indirect then (s.mem.read (s.indexed m)).toNat else s.indexed m

/-- The state after the effective-address step: unchanged but for the event of an out-of-range indirect read
(R126, R127 (e)). -/
def State.resolve (s : State) (m : MemOperand) : State :=
  if m.indirect then s.noteRead (s.indexed m) else s

/-- The effective-address step: the address and the state after it. It runs for every word, before dispatch
(R89, the spec's decision D23, log 20). -/
def effectiveAddress (m : MemOperand) (s : State) : Nat × State := (s.ea m, s.resolve m)

/-- The floating register an R field selects: FR0 or FR1, nothing for 2 and 3 (R91 (a)). -/
def frSelect (r : Fin 4) : Option (Fin 2) := if h : r.val < 2 then some ⟨r.val, h⟩ else none

/-- The check common to FADD, FSUB, LDFR, STFR, VADD and VSUB (spec/42_floating_point.md R192): a reserved R raises
`ReservedOperand(IR)` and does nothing else; otherwise `body` runs with the selected register. -/
def withFr (r : Fin 4) (s : State) (body : Fin 2 → State) : Result :=
  match frSelect r with
  | none => .next (raiseReservedOperand s)
  | some f => .next (body f)

end Sys2Proof.Machine
end

