-- ==== Sys2Proof/Machine/Float.lean ====
section
/-! DEFINITION. FADD, FSUB, CNVRT, LDFR, STFR (spec/42_floating_point.md R185 to R192). -/

namespace Sys2Proof.Machine

/-- FADD (R185): `FR[R] <- fpAdd(FR[R], MemRead(ea, 16))`. -/
def execFadd (r : Fin 4) (m : MemOperand) (s : State) : Result :=
  let (ea, s) := effectiveAddress m s
  withFr r s fun f =>
    let (w, s) := memRead ea s
    s.setFr f (fpAdd s.fr[f] w)

/-- FSUB (R186): `FR[R] <- fpSub(FR[R], MemRead(ea, 16))`; the register is the minuend. -/
def execFsub (r : Fin 4) (m : MemOperand) (s : State) : Result :=
  let (ea, s) := effectiveAddress m s
  withFr r s fun f =>
    let (w, s) := memRead ea s
    s.setFr f (fpSub s.fr[f] w)

/-- CNVRT (R187): R 0 converts an integer word into FR0; R 1 converts a floating word into `GPR[IX]`, the IX that has
already indexed the address (R188, D24, log 21); R 2 and 3 do nothing more (D5, log 7). -/
def execCnvrt (r : Fin 4) (m : MemOperand) (s : State) : Result :=
  let (ea, s) := effectiveAddress m s
  match r with
  | 0 =>
    let (w, s) := memRead ea s
    .next (s.setFr 0 (intToFp w))
  | 1 =>
    let (w, s) := memRead ea s
    .next (s.setGpr m.ix (fpToInt w))
  | 2 => .next s
  | 3 => .next s

/-- LDFR (R189): `FR[R] <- MemRead(ea, 16)`, bit for bit. -/
def execLdfr (r : Fin 4) (m : MemOperand) (s : State) : Result :=
  let (ea, s) := effectiveAddress m s
  withFr r s fun f =>
    let (w, s) := memRead ea s
    s.setFr f w

/-- STFR (R190): `MemWrite(ea, 16, FR[R])`, bit for bit. -/
def execStfr (r : Fin 4) (m : MemOperand) (s : State) : Result :=
  let (ea, s) := effectiveAddress m s
  withFr r s fun f => memWrite ea s.fr[f] s

end Sys2Proof.Machine
end

