-- ==== Sys2Proof/Machine/LoadStore.lean ====
section
/-! DEFINITION. LDR and STR (spec/41_halt_load_store.md R152 to R156). -/

namespace Sys2Proof.Machine

/-- LDR (R152): `GPR[R] <- MemRead(ea, 16)`. -/
def execLdr (r : Fin 4) (m : MemOperand) (s : State) : Result :=
  let (ea, s) := effectiveAddress m s
  let (w, s) := memRead ea s
  .next (s.setGpr r w)

/-- STR (R154): `MemWrite(ea, 16, GPR[R])`. -/
def execStr (r : Fin 4) (m : MemOperand) (s : State) : Result :=
  let (ea, s) := effectiveAddress m s
  .next (memWrite ea s.gpr[r] s)

end Sys2Proof.Machine
end

