-- ==== Sys2Proof/Machine/System.lean ====
section
/-! DEFINITION. HLT (spec/41_halt_load_store.md R150) and the execution of an unknown opcode (spec/60_exceptions.md R253).
A meaning starts after the fetch step: the state it is given holds the instruction in IR and the advanced PC. -/

namespace Sys2Proof.Machine

/-- HLT (R150): after the effective-address step, whose result is ignored, `halted` becomes true. -/
def execHlt (_r : Fin 4) (m : MemOperand) (s : State) : Result :=
  let (_, s) := effectiveAddress m s
  .next s.halt

/-- An opcode that is not one of the ten (R90, R129, R253): the effective-address step of R89, then `UnknownOpcode`. -/
def execUnknown (op : Fin 64) (s : State) : Result :=
  let (_, s) := effectiveAddress (operandField s.ir) s
  .next (raiseUnknownOpcode op s)

end Sys2Proof.Machine
end

