-- ==== Sys2Proof/Machine/VectorUnit.lean ====
section
/-! DEFINITION. The vector unit (spec/43_vector.md R210 to R216) and VADD, VSUB (R217 to R219). -/

namespace Sys2Proof.Machine

/-- The two operations of the unit (R210). -/
inductive VecOp
  | add | sub
deriving DecidableEq, Repr

/-- The exact integer result of one element (R213, R214). -/
def VecOp.onInts : VecOp → Int → Int → Int
  | .add, x, y => x + y
  | .sub, x, y => x - y

/-- One element (R213): read first vector, read second vector, write first vector, in this order (D12, log 14). -/
def vectorElement (op : VecOp) (a b : Nat) (s : State) : State :=
  let (x, s) := memRead a s
  let (y, s) := memRead b s
  memWrite a (mask16 (op.onInts x.toInt y.toInt)) s

/-- `n` elements from index `i` on, in ascending order (R213). -/
def vectorLoop (op : VecOp) (addr1 addr2 : Nat) : Nat → Nat → State → State
  | 0, _, s => s
  | n + 1, i, s => vectorLoop op addr1 addr2 n (i + 1) (vectorElement op (addr1 + i) (addr2 + i) s)

/-- `vectorOp(op, length, pointerAddress)` (R213): a zero length touches no memory (D13, log 15); the two pointers are
read once, before the loop (D12). -/
def vectorOp (op : VecOp) (length pointer : Nat) (s : State) : State :=
  if length = 0 then s
  else
    let (addr1, s) := memRead pointer s
    let (addr2, s) := memRead (pointer + 1) s
    vectorLoop op addr1.toNat addr2.toNat length 0 s

/-- VADD (R217): the length is `FR[R]` as an unsigned word (R212, C3, log 23), the pointer pair is at `ea`. -/
def execVadd (r : Fin 4) (m : MemOperand) (s : State) : Result :=
  let (ea, s) := effectiveAddress m s
  withFr r s fun f => vectorOp .add s.fr[f].toNat ea s

/-- VSUB (R218): as VADD with the difference. -/
def execVsub (r : Fin 4) (m : MemOperand) (s : State) : Result :=
  let (ea, s) := effectiveAddress m s
  withFr r s fun f => vectorOp .sub s.fr[f].toNat ea s

end Sys2Proof.Machine
end

