-- ==== Sys2Proof/Machine/Dispatch.lean ====
section
/-! DEFINITION. The dispatch (spec/40_cycle_and_effective_address.md R129): one arm per row of the opcode table. -/

namespace Sys2Proof.Machine

def exec (i : Instr) (s : State) : Host.Outcome State Fault Refusal :=
  match i with
  | .hlt r m => Sys2Proof.Machine.execHlt r m s
  | .ldr r m => Sys2Proof.Machine.execLdr r m s
  | .str r m => Sys2Proof.Machine.execStr r m s
  | .fadd r m => Sys2Proof.Machine.execFadd r m s
  | .fsub r m => Sys2Proof.Machine.execFsub r m s
  | .vadd r m => Sys2Proof.Machine.execVadd r m s
  | .vsub r m => Sys2Proof.Machine.execVsub r m s
  | .cnvrt r m => Sys2Proof.Machine.execCnvrt r m s
  | .ldfr r m => Sys2Proof.Machine.execLdfr r m s
  | .stfr r m => Sys2Proof.Machine.execStfr r m s

end Sys2Proof.Machine
end

