-- ==== Sys2Proof/Machine/Step.lean ====
section
/-! DEFINITION. One step: the host's step request (spec/44_host_operations.md R237, R238). -/

namespace Sys2Proof.Machine

/-- In RUNNING, one whole cycle: fetch, decode, then the effective address and the execution of the decoded word
(spec/40_cycle_and_effective_address.md R131). In HALTED no cycle runs and nothing changes (R238, the spec's decision
D14, log 3). -/
def step (s : State) : Host.Outcome State Fault Refusal :=
  if s.halted then .next s
  else
    match decodeWord (fetch s).ir with
    | .instr i => exec i (fetch s)
    | .unknownOpcode op => execUnknown op (fetch s)

/-- The state with the table's word `w` as the next instruction, placed by the host (log 26): RUNNING, PC where it was if
that is an address of memory and 0 if it is not, and the word stored there. -/
def State.withFetchWord (s : State) (nbits w : Nat) : State :=
  let pc : AddrReg := if s.pc.toNat < Config.memWords then s.pc else 0
  { s with halted := false, pc := pc, mem := s.mem.write pc.toNat (tableWord nbits w) }

end Sys2Proof.Machine
end

