-- ==== Sys2Proof/Machine/Assembler.lean ====
section
/-! DEFINITION. The assembler as far as the spec settles it (spec/30_encoding.md R94 to R104): software outside the
block (spec/00_scope.md R4). Source text is a list of characters. A line to which the spec gives no meaning is refused
by name (D18, U10, U11, D22; logs 27 to 29); the small points the spec leaves open are the model's choices of logs 28 to
35, named where they are settled. -/

namespace Sys2Proof.Machine

abbrev Text := List Char

/-- Why a source has no meaning in this spec. Safe: such a source yields no words. -/
inductive AsmRefusal
  /-- a mnemonic that is neither one of the ten nor a directive, in capitals (R96, U11, D22) -/
  | unknownMnemonic (t : Text)
  /-- an operand that does not fit its field, or an address of more than six octal digits (R95, D18, U10) -/
  | operandDoesNotFit (t : Text)
  /-- more operands than the grammar allows, or none where one is needed (R94) -/
  | wrongOperandCount (t : Text)
  /-- a LOC operand that is no number: pass 1 has no full symbol table to look it up in (R97, R99) -/
  | locNotNumeric (t : Text)
  /-- a label that is bound twice, or an empty one (R94, R99 say nothing of either) -/
  | badLabel (t : Text)
deriving DecidableEq, Repr

/-- The mnemonic of a row, in capitals (R86, R104). -/
def mnemonicOf : Op → Text
  | .hlt   => ['H', 'L', 'T']
  | .ldr   => ['L', 'D', 'R']
  | .str   => ['S', 'T', 'R']
  | .fadd  => ['F', 'A', 'D', 'D']
  | .fsub  => ['F', 'S', 'U', 'B']
  | .vadd  => ['V', 'A', 'D', 'D']
  | .vsub  => ['V', 'S', 'U', 'B']
  | .cnvrt => ['C', 'N', 'V', 'R', 'T']
  | .ldfr  => ['L', 'D', 'F', 'R']
  | .stfr  => ['S', 'T', 'F', 'R']

/-! ## Characters, tokens, numbers -/

/-- White space: space, tab and carriage return. DESIGN CHOICE (log 33): R94 and R95 do not say which characters it is. -/
def isBlank (c : Char) : Bool := c == ' ' || c == '\t' || c == '\r'

def trimText (t : Text) : Text := ((t.dropWhile isBlank).reverse.dropWhile isBlank).reverse

/-- Cut at every character that satisfies `p`. -/
def cutAt (p : Char → Bool) : Text → List Text
  | [] => [[]]
  | c :: cs =>
    match cutAt p cs with
    | [] => [[c]]
    | t :: ts => if p c then [] :: t :: ts else (c :: t) :: ts

/-- The source's lines, ended by a line feed. DESIGN CHOICE (log 33): R94 does not say what ends a line. -/
def linesOf (t : Text) : List Text := cutAt (· == '\n') t

/-- The tokens of a line, between white space and commas (R95); adjoining separators count as one (log 28). DESIGN CHOICE
(log 34): a comma separates wherever it stands, also outside the operand list: before or right after the mnemonic, after
the last operand, or alone on a line, which then says nothing. -/
def tokensOf (t : Text) : List Text := (cutAt (fun c => isBlank c || c == ',') t).filter (· != [])

/-- A letter in capitals; the labels are case-insensitive (R94). DESIGN CHOICE (log 33): the letters are `a` to `z`. -/
def upperChar (c : Char) : Char :=
  if 'a'.toNat ≤ c.toNat ∧ c.toNat ≤ 'z'.toNat then Char.ofNat (c.toNat - 32) else c

def upperText (t : Text) : Text := t.map upperChar

/-- The value of a digit of base 10 or 16. -/
def digitValue (c : Char) : Option Nat :=
  if '0'.toNat ≤ c.toNat ∧ c.toNat ≤ '9'.toNat then some (c.toNat - '0'.toNat)
  else if 'a'.toNat ≤ c.toNat ∧ c.toNat ≤ 'f'.toNat then some (c.toNat - 'a'.toNat + 10)
  else if 'A'.toNat ≤ c.toNat ∧ c.toNat ≤ 'F'.toNat then some (c.toNat - 'A'.toNat + 10)
  else none

/-- The number a run of digits denotes, most significant first. -/
def digitsValue (base : Nat) : Nat → Text → Option Nat
  | acc, [] => some acc
  | acc, c :: cs =>
    match digitValue c with
    | some d => if d < base then digitsValue base (acc * base + d) cs else none
    | none => none

/-- A numeric literal (R98): decimal, or hexadecimal after `0x` or `0X`; a decimal with a minus sign is read as the
negative number it denotes, which then fits no field (U10). `none` is a malformed literal. -/
def literal (t : Text) : Option Int :=
  match t with
  | '0' :: 'x' :: d :: ds => (digitsValue 16 0 (d :: ds)).map Int.ofNat
  | '0' :: 'X' :: d :: ds => (digitsValue 16 0 (d :: ds)).map Int.ofNat
  | '-' :: d :: ds => (digitsValue 10 0 (d :: ds)).map fun n => -(n : Int)
  | d :: ds => (digitsValue 10 0 (d :: ds)).map Int.ofNat
  | [] => none

/-! ## Lines -/

/-- What a line says once its comment and label are off (R94, R97). -/
inductive AsmItem
  | nothing
  | loc (a : Nat) (echo : Text)
  | data (operand : Text)
  | instr (op : Op) (operands : List Text)
deriving DecidableEq, Repr

structure AsmLine where
  label : Option Text
  item : AsmItem
  /-- the original source line (R100, R102) -/
  source : Text
deriving DecidableEq, Repr

/-- The largest number of six octal digits, plus one (R103). -/
def octalLimit : Nat := 8 ^ 6

/-- The item of a line without comment and label. -/
def parseItem (t : Text) : Except AsmRefusal AsmItem :=
  match tokensOf t with
  | [] => .ok .nothing
  | name :: operands =>
    if name = ['L', 'O', 'C'] then
      match operands with
      | [a] =>
        match literal a with
        | some n => if 0 ≤ n ∧ n < octalLimit then .ok (.loc n.toNat t) else .error (.operandDoesNotFit a)
        | none => .error (.locNotNumeric a)
      | _ => .error (.wrongOperandCount t)
    else if name = ['D', 'A', 'T', 'A'] then
      match operands with
      | [v] => .ok (.data v)
      | _ => .error (.wrongOperandCount t)
    else
      match Op.all.find? fun o => mnemonicOf o == name with
      | some o => if operands.length ≤ 4 then .ok (.instr o operands) else .error (.wrongOperandCount t)
      | none => .error (.unknownMnemonic name)

/-- One source line (R94): the comment goes, then the label up to the first colon, then the rest is the item.
DESIGN CHOICE (log 35): of several colons the first ends the label, and any text before it is a label but an empty one. -/
def parseLine (source : Text) : Except AsmRefusal AsmLine :=
  let body := trimText (source.takeWhile (· != ';'))
  if body.contains ':' then
    let label := upperText (trimText (body.takeWhile (· != ':')))
    if label = [] then .error (.badLabel source)
    else
      match parseItem (trimText ((body.dropWhile (· != ':')).drop 1)) with
      | .ok item => .ok ⟨some label, item, source⟩
      | .error e => .error e
  else
    match parseItem body with
    | .ok item => .ok ⟨none, item, source⟩
    | .error e => .error e

/-- All lines, the first refusal if there is one. -/
def parseLines : List Text → Except AsmRefusal (List AsmLine)
  | [] => .ok []
  | t :: ts =>
    match parseLine t, parseLines ts with
    | .ok l, .ok ls => .ok (l :: ls)
    | .error e, _ => .error e
    | _, .error e => .error e

/-! ## Pass 1 -/

abbrev Symbols := List (Text × Nat)

/-- Bind a line's label, if it has one; a second binding of a label is refused (log 29). -/
def bindLabel (label : Option Text) (a : Nat) (tbl : Symbols) : Except AsmRefusal Symbols :=
  match label with
  | none => .ok tbl
  | some l => if (tbl.lookup l).isSome then .error (.badLabel l) else .ok ((l, a) :: tbl)

/-- Pass 1 (R99): the symbol table, from location counter `counter` on. -/
def pass1 : List AsmLine → Nat → Symbols → Except AsmRefusal Symbols
  | [], _, tbl => .ok tbl
  | l :: ls, counter, tbl =>
    let here := match l.item with
      | .loc a _ => a
      | _ => counter
    let after := match l.item with
      | .loc a _ => a
      | .nothing => counter
      | .data _ => counter + 1
      | .instr _ _ => counter + 1
    match bindLabel l.label here tbl with
    | .ok tbl' => pass1 ls after tbl'
    | .error e => .error e

/-! ## Pass 2 -/

/-- Put a value at an address of an ascending list; a later value overwrites an earlier one (R100). -/
def putAt {α : Type} (a : Nat) (v : α) : List (Nat × α) → List (Nat × α)
  | [] => [(a, v)]
  | (k, x) :: rest =>
    if a < k then (a, v) :: (k, x) :: rest
    else if a = k then (a, v) :: rest
    else (k, x) :: putAt a v rest

/-- What pass 2 yields (R100). -/
structure Assembly where
  words : List (Nat × Word)
  sources : List (Nat × Text)
  markers : List (Nat × Text)
deriving DecidableEq, Repr

/-- The value of an operand (R97, R98): a literal, else the symbol's address, else 0. -/
def operandValue (tbl : Symbols) (t : Text) : Int :=
  match literal t with
  | some n => n
  | none => ((tbl.lookup (upperText t)).getD 0 : Nat)

/-- An operand as a field below `n`; 0 when it is absent (R95), refused when it does not fit (D18). -/
def fieldOf (tbl : Symbols) (n : Nat) (t : Option Text) : Except AsmRefusal Nat :=
  match t with
  | none => .ok 0
  | some t =>
    let v := operandValue tbl t
    if 0 ≤ v ∧ v < n then .ok v.toNat else .error (.operandDoesNotFit t)

/-- The word of an instruction line (R95, R96): operands R, IX, ADDR, I in this order; HLT emits 0 in every other bit.
DESIGN CHOICE (log 30): HLT's operands are ignored unchecked, also those that would fit no field. -/
def assembleInstr (tbl : Symbols) (o : Op) (operands : List Text) : Except AsmRefusal Word :=
  match o with
  | .hlt => .ok (encodeFields o.code 0 ⟨0, false, 0⟩)
  | _ =>
    match fieldOf tbl 4 operands[0]?, fieldOf tbl 4 operands[1]?, fieldOf tbl 32 operands[2]? with
    | .ok r, .ok ix, .ok a =>
      .ok (encodeFields o.code (Fin.ofNat 4 r)
        ⟨Fin.ofNat 4 ix, operands[3]? == some ['1'] || operands[3]? == some ['I'], Fin.ofNat 32 a⟩)
    | .error e, _, _ => .error e
    | _, .error e, _ => .error e
    | _, _, .error e => .error e

/-- Emit one word (R100). -/
def Assembly.emit (o : Assembly) (a : Nat) (w : Word) (source : Text) : Assembly :=
  { o with words := putAt a w o.words, sources := putAt a source o.sources }

/-- Pass 2 (R100): words, source lines and LOC markers, from location counter `counter` on. DESIGN CHOICE (log 31): of two
LOC lines that name the same address the later one's marker stays; R100 says that of words only. -/
def pass2 (tbl : Symbols) : List AsmLine → Nat → Assembly → Except AsmRefusal Assembly
  | [], _, o => .ok o
  | l :: ls, counter, o =>
    match l.item with
    | .nothing => pass2 tbl ls counter o
    | .loc a echo => pass2 tbl ls a { o with markers := putAt a echo o.markers }
    | .data v =>
      match fieldOf tbl 65536 (some v) with
      | .ok n =>
        if counter < octalLimit then pass2 tbl ls (counter + 1) (o.emit counter (BitVec.ofNat 16 n) l.source)
        else .error (.operandDoesNotFit l.source)
      | .error e => .error e
    | .instr op operands =>
      match assembleInstr tbl op operands with
      | .ok w =>
        if counter < octalLimit then pass2 tbl ls (counter + 1) (o.emit counter w l.source)
        else .error (.operandDoesNotFit l.source)
      | .error e => .error e

/-- The assembler: two passes over the same lines (R99, R100). -/
def assemble (source : Text) : Except AsmRefusal Assembly :=
  match parseLines (linesOf source) with
  | .error e => .error e
  | .ok ls =>
    match pass1 ls 0 [] with
    | .error e => .error e
    | .ok tbl => pass2 tbl ls 0 ⟨[], [], []⟩

/-! ## Output -/

/-- The last `k` octal digits of a number, most significant first. -/
def octalDigits : Nat → Nat → Text
  | 0, _ => []
  | k + 1, n => octalDigits k (n / 8) ++ [Char.ofNat ('0'.toNat + n % 8)]

/-- A number as six octal digits (R103). -/
def octal6 (n : Nat) : Text := octalDigits 6 n

/-- `<address-octal> <word-octal>` (R103). -/
def loadLine (c : Nat × Word) : Text := octal6 c.1 ++ ' ' :: octal6 c.2.toNat

/-- The load file (R103): ascending addresses, newlines between the lines and none after the last. -/
def loadFile (o : Assembly) : Text := List.intercalate ['\n'] (o.words.map loadLine)

/-- The addresses that have a word or a LOC marker, ascending (R102). -/
def listedAddresses (o : Assembly) : List Nat :=
  ((o.words.map fun c => (c.1, ())) ++ (o.markers.map fun c => (c.1, ()))).foldl (fun m c => putAt c.1 () m) []
    |>.map (·.1)

/-- The listing's lines at one address (R102): the LOC marker, if any, then the word with its source line, if any. -/
def listingAt (o : Assembly) (a : Nat) : List Text :=
  (match o.markers.lookup a with
    | some t => [t]
    | none => []) ++
  (match o.words.lookup a with
    | some w => [loadLine (a, w) ++ ' ' :: (o.sources.lookup a).getD []]
    | none => [])

/-- The listing (R102). DESIGN CHOICE (log 32): newlines between the lines and none after the last. -/
def listing (o : Assembly) : Text := List.intercalate ['\n'] ((listedAddresses o).flatMap (listingAt o))

/-- The address to word mapping the loader delivers to the block (R103, spec/44_host_operations.md R233). -/
def programOf (o : Assembly) : List (Nat × Int) := o.words.map fun c => (c.1, (c.2.toNat : Int))

end Sys2Proof.Machine
end

