-- ==== Sys2Proof/Machine/HostOps.lean ====
section
/-! DEFINITION. The operations the surroundings perform on the block between cycles (spec/44_host_operations.md
R230 to R242). Each is a whole transition of the state; none overlaps a cycle (R241, log 25). -/

namespace Sys2Proof.Machine

/-- The registers that have a `set` (R235, D17, log 18): every register; `halted` is not one. -/
inductive RegName
  | pc | mar | mbr | ir
  | gpr (i : Fin 4)
  | ixr (i : Fin 3)
  | fr (i : Fin 2)
deriving DecidableEq, Repr

/-- The declared width of a register (R20). -/
def RegName.width : RegName → Nat
  | .pc | .mar => 12
  | .mbr | .ir | .gpr _ | .ixr _ | .fr _ => 16

/-- `get()` (R21, R236): the stored value, unmodified. -/
def State.readReg (s : State) : RegName → Nat
  | .pc => s.pc.toNat
  | .mar => s.mar.toNat
  | .mbr => s.mbr.toNat
  | .ir => s.ir.toNat
  | .gpr i => s.gpr[i].toNat
  | .ixr i => s.ixr[i].toNat
  | .fr i => s.fr[i].toNat

/-- `set(value)` (R21, R235): masks to the register's width and writes that register only. -/
def State.writeReg (s : State) (r : RegName) (v : Int) : State :=
  match r with
  | .pc => { s with pc := mask12 v }
  | .mar => { s with mar := mask12 v }
  | .mbr => { s with mbr := mask16 v }
  | .ir => { s with ir := mask16 v }
  | .gpr i => s.setGpr i (mask16 v)
  | .ixr i => s.setIxr i (mask16 v)
  | .fr i => s.setFr i (mask16 v)

/-- Power-on (R230): the only register reset, and the only way out of HALTED. -/
def powerOn : State := State.reset

/-- The memory reset operation (R231, spec/10_state.md R38): every word 0, everything else kept. -/
def memoryReset (s : State) : State := { s with mem := [] }

/-- A memory read by the host (R232): the primitive of the engine. -/
def hostRead (a : Nat) (s : State) : Word × State := memRead a s

/-- A memory write by the host (R232, spec/20_memory.md R53): any integer, masked to 16 bits. -/
def hostWrite (a : Nat) (v : Int) (s : State) : State := memWrite a (mask16 v) s

/-- The load operation (R233, D15, log 17): each pair of the mapping through `MemWrite`, nothing else. -/
def load (p : List (Nat × Int)) (s : State) : State := p.foldl (fun s c => hostWrite c.1 c.2 s) s

/-- The state after a step request (R237, R238). Every step answers a next state (`Obligations.EveryStepCompletes`), so
the last two cases, which would keep the state, never arise. -/
def stepRequest (s : State) : State :=
  match step s with
  | .next t => t
  | .fault _ => s
  | .refused _ => s

/-- The run loop (R239), cancelled at the cycle boundary after `k` cycles if the block has not halted before (R240). -/
def runFor : Nat → State → State
  | 0, s => s
  | k + 1, s => if s.halted then s else runFor k (stepRequest s)

/-- Run to completion (R239): no run is longer than 2049 cycles (spec/40_cycle_and_effective_address.md R133). -/
def runToHalt (s : State) : State := runFor Config.maxRunCycles s

/-- What the host may do (R242). -/
inductive HostOp
  | powerOn
  | memoryReset
  | memoryRead (a : Nat)
  | memoryWrite (a : Nat) (v : Int)
  | load (p : List (Nat × Int))
  | registerWrite (r : RegName) (v : Int)
  /-- inspection of a register or of `halted`, memory and the stream (R236) -/
  | inspect
  | step
  /-- a run; `some k` is a run cancelled at the boundary after `k` cycles -/
  | run (cancel : Option Nat)
deriving DecidableEq, Repr

/-- The state after a host operation. -/
def HostOp.apply : HostOp → State → State
  | .powerOn, _ => Machine.powerOn
  | .memoryReset, s => Machine.memoryReset s
  | .memoryRead a, s => (hostRead a s).2
  | .memoryWrite a v, s => hostWrite a v s
  | .load p, s => Machine.load p s
  | .registerWrite r v, s => s.writeReg r v
  | .inspect, s => s
  | .step, s => stepRequest s
  | .run none, s => runToHalt s
  | .run (some k), s => runFor k s

/-- The boot sequence (spec/70_reset_and_hazards.md R282): power-on, load, register writes, start PC. -/
def boot (program : List (Nat × Int)) (registers : List (RegName × Int)) (start : Int) : State :=
  (registers.foldl (fun s c => s.writeReg c.1 c.2) (load program powerOn)).writeReg .pc start

end Sys2Proof.Machine
end

