-- ==== Sys2Proof/Safety.lean ====
section
/-! DEFINITION. What claims call a sound state, a settled state, a quiet run and the ways a run ends. -/

namespace Sys2Proof.Machine

/-- The invariant of the model: memory is in its canonical form, inside the 2048 words. Every width of R21 is in a type. -/
abbrev State.Inv (s : State) : Prop := Memory.wf s.mem

/-- What holds at a cycle boundary after at least one cycle, while the host leaves PC, MAR, MBR and IR alone
(spec/10_state.md R39). -/
abbrev State.Settled (s : State) : Prop := s.mbr = s.ir ∧ s.pc = s.mar + 1

/-- No diagnostic has been raised (R33). -/
def State.quiet (s : State) : Bool := s.diags.isEmpty

/-- The ways a run ends (spec/40_cycle_and_effective_address.md R134). -/
inductive Ending
  | hlt
  | unknownOpcode
  | reservedOperand
deriving DecidableEq, Repr

/-- How a run ended, told from IR (R134): HLT has opcode 0, an unknown opcode is none of the ten, and of the words left
only a reserved operand halts. `none` while RUNNING. -/
def State.ending (s : State) : Option Ending :=
  if s.halted then
    match decodeWord s.ir with
    | .instr (.hlt _ _) => some .hlt
    | .instr _ => some .reservedOperand
    | .unknownOpcode _ => some .unknownOpcode
  else none

/-- A run that did what its program says: it ended by its own HLT and raised no diagnostic. -/
def State.endedWell (s : State) : Bool := s.ending == some .hlt && s.quiet

/-! ## The events of one access, newest first

What claims append to the stream. The events and what they carry are the spec's decision D16 (log 2). -/

/-- The events of one read at `a` (spec/60_exceptions.md R251). -/
def readEvents (a : Nat) : List Diag := if a < 2048 then [] else [.outOfRangeRead a]

/-- The events of one write at `a` (R252). -/
def writeEvents (a : Nat) : List Diag := if a < 2048 then [] else [.outOfRangeWrite a]

/-- The events of the effective-address step: those of the indirect read, if I is set (R126, R127 (e)). -/
def State.eaEvents (s : State) (m : MemOperand) : List Diag :=
  if m.indirect then readEvents (s.indexed m) else []

/-- The decoded word halts the engine (R29): HLT, an unknown opcode or a reserved operand. -/
def haltsOn : Decoded → Bool
  | .instr (.hlt _ _) => true
  | .instr i => !i.wellFormed
  | .unknownOpcode _ => true

end Sys2Proof.Machine
end

