-- ==== Sys2Proof/Certificates/Slice0/Obligations.lean ====
section
/-! DEFINITION. The statements for the provers. Where a statement rests on one of the spec's own decisions
(spec/92_eei_decisions.md D1 to D24) its docstring names it and its basis is 'derived'. -/

open Sys2Proof Sys2Proof.Machine

/-! ## Memory and registers -/

/-- R54 of spec/20_memory.md: a read after a write in range gives the written value masked to 16 bits, and a write to
`a` changes only `Mem[a]`. -/
def Obligations.ReadAfterWriteGivesMaskedValue : Prop :=
  ∀ (s : State) (a : Nat) (v : Int), a < 2048 →
    (memRead a (hostWrite a v s)).1 = mask16 v ∧
    (∀ b, b ≠ a → (memRead b (hostWrite a v s)).1 = (memRead b s).1) ∧
    hostWrite a v s = { s with mem := (hostWrite a v s).mem }

/-- spec/20_memory.md section 2 (R52, R53): in range a read gives the word and changes nothing; out of range a read gives 0,
a write is dropped, and each appends its event. The form of the events is the spec's decision D16. -/
def Obligations.OutOfRangeAccessIsFailSoft : Prop :=
  ∀ (s : State) (a : Nat) (w : Word),
    (a < 2048 → memRead a s = (s.mem.word a, s) ∧ (memWrite a w s).diags = s.diags) ∧
    (2048 ≤ a → memRead a s = (0, { s with diags := .outOfRangeRead a :: s.diags }) ∧
      memWrite a w s = { s with diags := .outOfRangeWrite a :: s.diags })

/-- R21 of spec/10_state.md: a register write stores the value masked to the register's width, a read returns the stored
value, no register overlaps another, and every stored value fits its width. -/
def Obligations.RegisterWriteMasksAndReadsBack : Prop :=
  ∀ (s : State) (r : RegName) (v : Int),
    ((s.writeReg r v).readReg r : Int) = v % 2 ^ r.width ∧
    (∀ r', r' ≠ r → (s.writeReg r v).readReg r' = s.readReg r') ∧
    (∀ r', s.readReg r' < 2 ^ r'.width) ∧ (∀ a, (s.mem.read a).toNat < 2 ^ 16)

/-- spec/10_state.md section 5: after power-on every register and every memory word is 0, the stream is empty, and the
engine is RUNNING (`halted = false` is the spec's decision D19). -/
def Obligations.PowerOnZeroesEverything : Prop :=
  (∀ r, State.reset.readReg r = 0) ∧ (∀ a, State.reset.mem.read a = 0) ∧ State.reset.halted = false ∧
    State.reset.stream = []

/-- R38 of spec/10_state.md and R231: the memory reset operation zeroes every word and touches nothing else. -/
def Obligations.MemoryResetZeroesMemoryOnly : Prop :=
  ∀ s : State, (∀ a, (memoryReset s).mem.read a = 0) ∧
    (memoryReset s).stream = s.stream ∧ (memoryReset s).halted = s.halted ∧
    (∀ r, (memoryReset s).readReg r = s.readReg r)

/-! ## Encoding -/

/-- spec/30_encoding.md section 3 (R86, R87): the opcode `w[15:10]` alone selects the row, whatever the other ten bits,
and the operand fields are those of R82. -/
def Obligations.OpcodeAloneSelectsTheRow : Prop :=
  ∀ w : Word,
    let r : Fin 4 := Fin.ofNat 4 (w.toNat / 256)
    let m : MemOperand := ⟨Fin.ofNat 4 (w.toNat / 64), w.toNat / 32 % 2 == 1, Fin.ofNat 32 w.toNat⟩
    (w.toNat / 1024 = 0 → decodeWord w = .instr (.hlt r m)) ∧
    (w.toNat / 1024 = 1 → decodeWord w = .instr (.ldr r m)) ∧
    (w.toNat / 1024 = 2 → decodeWord w = .instr (.str r m)) ∧
    (w.toNat / 1024 = 34 → decodeWord w = .instr (.fadd r m)) ∧
    (w.toNat / 1024 = 36 → decodeWord w = .instr (.fsub r m)) ∧
    (w.toNat / 1024 = 37 → decodeWord w = .instr (.vadd r m)) ∧
    (w.toNat / 1024 = 38 → decodeWord w = .instr (.vsub r m)) ∧
    (w.toNat / 1024 = 39 → decodeWord w = .instr (.cnvrt r m)) ∧
    (w.toNat / 1024 = 40 → decodeWord w = .instr (.ldfr r m)) ∧
    (w.toNat / 1024 = 41 → decodeWord w = .instr (.stfr r m))

/-- spec/30_encoding.md section 1 (R82): decoding the word of any instruction gives the instruction back, with every operand
at every value its field admits, the reserved operands too. -/
def Obligations.DecodeInvertsEncode : Prop := ∀ i : Instr, decodeWord (encode i) = .instr i

/-- spec/30_encoding.md section 1 (R82): a word that decodes to an instruction is the word of that instruction; no bit of it
is lost. -/
def Obligations.EncodeInvertsDecode : Prop := ∀ (w : Word) (i : Instr), decodeWord w = .instr i → encode i = w

/-- Words written out in the instruction rules' worked examples (spec/41_halt_load_store.md, spec/42_floating_point.md,
spec/43_vector.md) decode to the instructions they stand for. -/
def Obligations.WorkedExampleWordsDecode : Prop :=
  decodeWord 0x0000 = .instr (.hlt 0 ⟨0, false, 0⟩) ∧
  decodeWord 0x0514 = .instr (.ldr 1 ⟨0, false, 20⟩) ∧
  decodeWord 0x0915 = .instr (.str 1 ⟨0, false, 21⟩) ∧
  decodeWord 0x8815 = .instr (.fadd 0 ⟨0, false, 21⟩) ∧
  decodeWord 0x9116 = .instr (.fsub 1 ⟨0, false, 22⟩) ∧
  decodeWord 0x9515 = .instr (.vadd 1 ⟨0, false, 21⟩) ∧
  decodeWord 0x9815 = .instr (.vsub 0 ⟨0, false, 21⟩) ∧
  decodeWord 0x9D97 = .instr (.cnvrt 1 ⟨2, false, 23⟩) ∧
  decodeWord 0xA114 = .instr (.ldfr 1 ⟨0, false, 20⟩) ∧
  decodeWord 0xA417 = .instr (.stfr 0 ⟨0, false, 23⟩)

/-! ## The cycle -/

/-- spec/40_cycle_and_effective_address.md section 1 (R121): every cycle, whatever the word, puts the old PC in MAR and the word
read there in MBR and IR, and leaves PC one further modulo 4096. That MAR and MBR still hold them after the whole cycle
is the spec's decision D2 (R23, R24, log 4). -/
def Obligations.EveryCycleFetchesAndAdvancesPc : Prop :=
  ∀ s : State, s.halted = false → ∃ t, step s = .next t ∧
    t.mar = s.pc ∧ t.mbr = (memRead s.pc.toNat s).1 ∧ t.ir = t.mbr ∧ t.pc.toNat = (s.pc.toNat + 1) % 4096

/-- spec/40_cycle_and_effective_address.md section 4 (R131): when the bytes at PC are those of an instruction, a step is the
execution of that instruction on the state the fetch step leaves. -/
def Obligations.StepRunsTheDecodedInstruction : Prop :=
  ∀ (s : State) (i : Instr), s.halted = false → s.pc.toNat < 2048 →
    decodeBytes [s.mem.byteAt (2 * s.pc.toNat), s.mem.byteAt (2 * s.pc.toNat + 1)] = some (.instr i) →
    step s = exec i { s with mar := s.pc, mbr := s.mem.word s.pc.toNat, ir := s.mem.word s.pc.toNat, pc := s.pc + 1 }

/-- R126 of spec/40_cycle_and_effective_address.md: the address field, plus the selected index register as an unsigned
number, then one level of indirection when I is set; within the rule's bounds; and the step writes no state (the stream
is an output, R20). -/
def Obligations.EffectiveAddressIsIndexedThenIndirect : Prop :=
  ∀ (s : State) (m : MemOperand),
    let base := m.address.val +
      (match m.ix with
        | 0 => 0
        | 1 => s.ixr[0].toNat
        | 2 => s.ixr[1].toNat
        | 3 => s.ixr[2].toNat)
    base ≤ 65566 ∧
    (m.indirect = false → (effectiveAddress m s).1 = base) ∧
    (m.indirect = true → (effectiveAddress m s).1 = (memRead base s).1.toNat ∧ (effectiveAddress m s).1 ≤ 65535) ∧
    { (effectiveAddress m s).2 with diags := s.diags } = s

/-- spec/40_cycle_and_effective_address.md section 2 (R127 (e)): an indirect read beyond memory gives the address 0 and its
event, whose form is the spec's decision D16. -/
def Obligations.IndirectReadBeyondMemoryGivesAddressZero : Prop :=
  ∀ (s : State) (m : MemOperand), m.indirect = true → 2048 ≤ s.indexed m →
    effectiveAddress m s = (0, { s with diags := .outOfRangeRead (s.indexed m) :: s.diags })

/-- spec/40_cycle_and_effective_address.md section 1 (R122): a fetch from a PC of 2048 or more reads 0, which is HLT; the
event's form is the spec's decision D16. -/
def Obligations.FetchBeyondMemoryHalts : Prop :=
  ∀ s : State, s.halted = false → 2048 ≤ s.pc.toNat →
    step s = .next { s with mar := s.pc, mbr := 0, ir := 0, pc := s.pc + 1, halted := true,
                            diags := .outOfRangeRead s.pc.toNat :: s.diags }

/-- R90 of spec/30_encoding.md: exactly the words whose opcode is one of the 54 values 3 to 33, 35 and 42 to 63 are unknown,
and executing one reports a diagnostic and halts. -/
def Obligations.TheFiftyFourOtherOpcodesHalt : Prop :=
  (∀ w : Word, (∃ op, decodeWord w = .unknownOpcode op) ↔
    (3 ≤ w.toNat / 1024 ∧ w.toNat / 1024 ≤ 33) ∨ w.toNat / 1024 = 35 ∨
      (42 ≤ w.toNat / 1024 ∧ w.toNat / 1024 ≤ 63)) ∧
  (∀ (s : State) (op : Fin 64), s.halted = false → decodeWord (s.mem.read s.pc.toNat) = .unknownOpcode op →
    ∃ t, step s = .next t ∧ t.halted = true ∧ s.stream.length < t.stream.length)

/-- spec/60_exceptions.md section 1 (R253): the whole state after an unknown opcode: the fetch step's registers, HALTED, the
event last and before it that of the effective-address step (the spec's decisions D16 and D23), nothing else. -/
def Obligations.UnknownOpcodeLeavesEverythingElse : Prop :=
  ∀ (s : State) (op : Fin 64), s.halted = false → s.pc.toNat < 2048 →
    decodeWord (s.mem.word s.pc.toNat) = .unknownOpcode op →
    step s = .next { s with mar := s.pc, mbr := s.mem.word s.pc.toNat, ir := s.mem.word s.pc.toNat, pc := s.pc + 1,
                            halted := true,
                            diags := .unknownOpcode op ::
                              (s.eaEvents (operandField (s.mem.word s.pc.toNat)) ++ s.diags) }

/-! ## Results of the instructions, each the whole next state -/

/-- spec/41_halt_load_store.md HLT (R150): `halted` becomes true and nothing else changes but the event of the
effective-address step (the spec's decisions D16 and D23). -/
def Obligations.HltHaltsAndChangesNothingElse : Prop :=
  ∀ (r : Fin 4) (m : MemOperand) (s : State),
    exec (.hlt r m) s = .next { s with halted := true, diags := s.eaEvents m ++ s.diags }

/-- spec/41_halt_load_store.md LDR (R152): `GPR[R]` takes the word at `ea`, 0 when `ea` is out of range, and nothing else
changes but the events (D16). -/
def Obligations.LdrLoadsTheWordAtEa : Prop :=
  ∀ (r : Fin 4) (m : MemOperand) (s : State),
    exec (.ldr r m) s = .next { s with gpr := s.gpr.set r.val (if s.ea m < 2048 then s.mem.word (s.ea m) else 0) r.isLt,
                                       diags := readEvents (s.ea m) ++ (s.eaEvents m ++ s.diags) }

/-- spec/41_halt_load_store.md STR (R154): the word at `ea` takes `GPR[R]`, every byte outside that word stays, an
out-of-range `ea` stores nothing, and nothing else changes but the events (D16). -/
def Obligations.StrStoresTheRegisterAtEa : Prop :=
  ∀ (r : Fin 4) (m : MemOperand) (s : State), ∃ t, exec (.str r m) s = .next t ∧
    t = { s with mem := t.mem, diags := writeEvents (s.ea m) ++ (s.eaEvents m ++ s.diags) } ∧
    (s.ea m < 2048 → t.mem.word (s.ea m) = s.gpr[r]) ∧
    (∀ b, s.ea m < 2048 → b ≠ 2 * s.ea m → b ≠ 2 * s.ea m + 1 → t.mem.byteAt b = s.mem.byteAt b) ∧
    (2048 ≤ s.ea m → t.mem = s.mem)

/-- spec/42_floating_point.md section 4 (R189): LDFR copies the word at `ea` bit for bit into FR0 or FR1; events by D16. -/
def Obligations.LdfrLoadsTheWordAtEa : Prop :=
  ∀ (r : Fin 4) (h : r.val < 2) (m : MemOperand) (s : State),
    exec (.ldfr r m) s = .next { s with fr := s.fr.set r.val (if s.ea m < 2048 then s.mem.word (s.ea m) else 0) h,
                                        diags := readEvents (s.ea m) ++ (s.eaEvents m ++ s.diags) }

/-- spec/42_floating_point.md section 4 (R190): STFR stores FR0 or FR1 at `ea` bit for bit; events by D16. -/
def Obligations.StfrStoresTheRegisterAtEa : Prop :=
  ∀ (r : Fin 4) (h : r.val < 2) (m : MemOperand) (s : State), ∃ t, exec (.stfr r m) s = .next t ∧
    t = { s with mem := t.mem, diags := writeEvents (s.ea m) ++ (s.eaEvents m ++ s.diags) } ∧
    (s.ea m < 2048 → t.mem.word (s.ea m) = s.fr[r.val]) ∧
    (∀ b, s.ea m < 2048 → b ≠ 2 * s.ea m → b ≠ 2 * s.ea m + 1 → t.mem.byteAt b = s.mem.byteAt b) ∧
    (2048 ≤ s.ea m → t.mem = s.mem)

/-- spec/42_floating_point.md section 4 (R185): FADD puts the encoding of the exact sum in the selected register
(decisions D6 to D10 in the encoder, D16 in the events). -/
def Obligations.FaddAddsTheWordAtEa : Prop :=
  ∀ (r : Fin 4) (h : r.val < 2) (m : MemOperand) (s : State),
    exec (.fadd r m) s =
      .next { s with fr := s.fr.set r.val (fpEncode (fpScaled s.fr[r.val] + fpScaled (s.mem.read (s.ea m)))) h,
                     diags := readEvents (s.ea m) ++ (s.eaEvents m ++ s.diags) }

/-- spec/42_floating_point.md section 4 (R186): FSUB puts the encoding of the exact difference, register minus memory word, in
the selected register (decisions D6 to D10, D16). -/
def Obligations.FsubSubtractsTheWordAtEa : Prop :=
  ∀ (r : Fin 4) (h : r.val < 2) (m : MemOperand) (s : State),
    exec (.fsub r m) s =
      .next { s with fr := s.fr.set r.val (fpEncode (fpScaled s.fr[r.val] - fpScaled (s.mem.read (s.ea m)))) h,
                     diags := readEvents (s.ea m) ++ (s.eaEvents m ++ s.diags) }

/-- spec/42_floating_point.md section 4 (R187, R188): CNVRT with R 0 puts the encoding of the word at `ea`, read
as a signed integer (R182), in FR0 (decisions D6 to D10 in the encoder), with R 1 converts the word into `GPR[IX]`
(D24), and with R 2 or 3 reads nothing and does nothing (D5); events by D16. -/
def Obligations.CnvrtConvertsByDirection : Prop :=
  ∀ (m : MemOperand) (s : State),
    exec (.cnvrt 0 m) s = .next { s with fr := s.fr.set 0 (fpEncode ((s.mem.read (s.ea m)).toInt * 2 ^ 72)),
                                         diags := readEvents (s.ea m) ++ (s.eaEvents m ++ s.diags) } ∧
    exec (.cnvrt 1 m) s = .next { s with gpr := s.gpr.set m.ix.val (fpToInt (s.mem.read (s.ea m))) m.ix.isLt,
                                         diags := readEvents (s.ea m) ++ (s.eaEvents m ++ s.diags) } ∧
    (∀ r : Fin 4, 2 ≤ r.val → exec (.cnvrt r m) s = .next { s with diags := s.eaEvents m ++ s.diags })

/-- spec/60_exceptions.md section 1 (R254): R of 2 or 3 on the six instructions that select a floating register raises
`ReservedOperand(IR)`, halts, and does nothing else: no register, no memory, no access of the execute step. The halt is
the spec's decision D4. -/
def Obligations.ReservedOperandHalts : Prop :=
  ∀ (r : Fin 4) (m : MemOperand) (s : State), 2 ≤ r.val →
    ∀ i ∈ [Instr.fadd r m, .fsub r m, .ldfr r m, .stfr r m, .vadd r m, .vsub r m],
      exec i s = .next { s with halted := true, diags := .reservedOperand s.ir :: (s.eaEvents m ++ s.diags) }

/-- spec/43_vector.md section 1 (R212, R213): a length of 0 is no operation at all: the pointers are not read (D13). -/
def Obligations.VectorOfLengthZeroDoesNothing : Prop :=
  ∀ (r : Fin 4) (h : r.val < 2) (m : MemOperand) (s : State), s.fr[r.val] = 0 →
    exec (.vadd r m) s = .next { s with diags := s.eaEvents m ++ s.diags } ∧
    exec (.vsub r m) s = .next { s with diags := s.eaEvents m ++ s.diags }

/-- spec/43_vector.md sections 1 and 2 (R213 to R218): VADD and VSUB read the two pointers once, first then second, and then
run the elements 0 to length - 1 in this order, each reading the first vector, reading the second, writing the first, in
16-bit modular arithmetic, out-of-range accesses fail-soft. The order of the accesses is the spec's decision D12, the
events' form D16. -/
def Obligations.VectorRunsItsElementsInOrder : Prop :=
  ∀ (r : Fin 4) (h : r.val < 2) (m : MemOperand) (s : State), s.fr[r.val] ≠ 0 →
    let n := s.fr[r.val].toNat
    let a := (s.mem.read (s.ea m)).toNat
    let b := (s.mem.read (s.ea m + 1)).toNat
    let start : State := { s with diags := readEvents (s.ea m + 1) ++ (readEvents (s.ea m) ++ (s.eaEvents m ++ s.diags)) }
    let element (f : Word → Word → Word) (t : State) (i : Nat) : State :=
      { t with mem := t.mem.write (a + i) (f (t.mem.read (a + i)) (t.mem.read (b + i))),
               diags := writeEvents (a + i) ++ (readEvents (b + i) ++ (readEvents (a + i) ++ t.diags)) }
    exec (.vadd r m) s = .next ((List.range n).foldl (element (· + ·)) start) ∧
    exec (.vsub r m) s = .next ((List.range n).foldl (element (· - ·)) start)

/-- spec/43_vector.md section 1 (R214, R216): unless the second vector starts below the first and reaches into it, the loop
gives what an operation on whole vectors would: every element in range becomes the sum or the difference of the two old
elements. D12 fixes the order on which the excluded case depends. -/
def Obligations.VectorIsElementwiseUnlessItChasesItself : Prop :=
  ∀ (r : Fin 4) (h : r.val < 2) (m : MemOperand) (s : State),
    let n := s.fr[r.val].toNat
    let a := (s.mem.read (s.ea m)).toNat
    let b := (s.mem.read (s.ea m + 1)).toNat
    ¬(b < a ∧ a < b + n) →
    (∃ t, exec (.vadd r m) s = .next t ∧
      ∀ i < n, a + i < 2048 → t.mem.word (a + i) = s.mem.word (a + i) + s.mem.read (b + i)) ∧
    (∃ t, exec (.vsub r m) s = .next t ∧
      ∀ i < n, a + i < 2048 → t.mem.word (a + i) = s.mem.word (a + i) - s.mem.read (b + i))

/-- spec/43_vector.md section 1 (R216 (b)): with the second vector one word below the first, VADD leaves the running sum of
the word below and the first vector's elements (D12). -/
def Obligations.VectorAddOneBelowIsRunningSum : Prop :=
  ∀ (r : Fin 4) (h : r.val < 2) (m : MemOperand) (s : State),
    let n := s.fr[r.val].toNat
    let a := (s.mem.read (s.ea m)).toNat
    let b := (s.mem.read (s.ea m + 1)).toNat
    b + 1 = a → a + n ≤ 2048 →
    ∃ t, exec (.vadd r m) s = .next t ∧
      ∀ i < n, t.mem.word (a + i) = s.mem.word b + ((List.range (i + 1)).map fun j => s.mem.word (a + j)).sum

/-- spec/43_vector.md section 1 (R215): a vector instruction whose pointers and vectors lie in memory raises no event beyond
that of the effective-address step (D16). -/
def Obligations.VectorInMemoryRaisesNothing : Prop :=
  ∀ (r : Fin 4) (h : r.val < 2) (m : MemOperand) (s t : State), s.ea m + 1 < 2048 →
    (s.mem.read (s.ea m)).toNat + s.fr[r.val].toNat ≤ 2048 →
    (s.mem.read (s.ea m + 1)).toNat + s.fr[r.val].toNat ≤ 2048 →
    ∀ i ∈ [Instr.vadd r m, .vsub r m], exec i s = .next t → t.diags = s.eaEvents m ++ s.diags

/-! ## Frames -/

/-- The access matrix of spec/10_state.md section 4 (R36) for the instructions that store nothing: HLT, LDR, FADD, FSUB,
CNVRT, LDFR. No byte of memory changes, no index register, none of PC, MAR, MBR, IR (the fetch step wrote those); of the
general registers only LDR's `GPR[R]` and that of CNVRT with R 1, `GPR[IX]` (D24); of the floating registers only the selected
one of FADD, FSUB and LDFR and FR0 of CNVRT with R 0; `halted` only by HLT and by a reserved operand (D4). That MAR and MBR stay
is D2 (log 4). -/
def Obligations.LoadAndArithmeticFrame : Prop :=
  ∀ (r : Fin 4) (m : MemOperand) (s t : State),
    ∀ i ∈ [Instr.hlt r m, .ldr r m, .fadd r m, .fsub r m, .cnvrt r m, .ldfr r m], exec i s = .next t →
      (∀ b, t.mem.byteAt b = s.mem.byteAt b) ∧ t.ixr = s.ixr ∧
      t.pc = s.pc ∧ t.mar = s.mar ∧ t.mbr = s.mbr ∧ t.ir = s.ir ∧
      (∀ j : Fin 4, ¬(i = .ldr r m ∧ j = r) → ¬(i = .cnvrt r m ∧ r = 1 ∧ j = m.ix) → t.gpr[j] = s.gpr[j]) ∧
      (∀ f : Fin 2, ¬(i ∈ [Instr.fadd r m, .fsub r m, .ldfr r m] ∧ f.val = r.val) →
        ¬(i = .cnvrt r m ∧ r = 0 ∧ f = 0) → t.fr[f] = s.fr[f]) ∧
      (i ≠ .hlt r m → i.wellFormed = true → t.halted = s.halted)

/-- The access matrix of spec/10_state.md section 4 (R36) for STR and STFR: no register changes, no index register, none of PC,
MAR, MBR, IR; every byte of memory outside the word at `ea` stays; `halted` only by a reserved operand (D4). That MAR and
MBR stay is D2 (log 4). -/
def Obligations.StoreFrame : Prop :=
  ∀ (r : Fin 4) (m : MemOperand) (s t : State),
    ∀ i ∈ [Instr.str r m, .stfr r m], exec i s = .next t →
      (∀ b, b ≠ 2 * s.ea m → b ≠ 2 * s.ea m + 1 → t.mem.byteAt b = s.mem.byteAt b) ∧
      (2048 ≤ s.ea m → t.mem = s.mem) ∧ (i.wellFormed = false → t.mem = s.mem) ∧
      t.gpr = s.gpr ∧ t.fr = s.fr ∧ t.ixr = s.ixr ∧ t.pc = s.pc ∧ t.mar = s.mar ∧ t.mbr = s.mbr ∧ t.ir = s.ir ∧
      (i.wellFormed = true → t.halted = s.halted)

/-- The access matrix of spec/10_state.md section 4 (R36) for VADD and VSUB: no register changes; every byte of memory
outside the words of the first vector stays, its base being the word at `ea` and its length the selected register; with a
reserved operand (D4) all of memory stays and `halted` is set. That MAR and MBR stay is D2 (log 4). -/
def Obligations.VectorFrame : Prop :=
  ∀ (r : Fin 4) (m : MemOperand) (s t : State),
    ∀ i ∈ [Instr.vadd r m, .vsub r m], exec i s = .next t →
      (∀ h : r.val < 2,
        (∀ b, ¬((s.mem.read (s.ea m)).toNat ≤ b / 2 ∧ b / 2 < (s.mem.read (s.ea m)).toNat + s.fr[r.val].toNat) →
          t.mem.byteAt b = s.mem.byteAt b) ∧ t.halted = s.halted) ∧
      (2 ≤ r.val → t.mem = s.mem ∧ t.halted = true) ∧
      t.gpr = s.gpr ∧ t.fr = s.fr ∧ t.ixr = s.ixr ∧ t.pc = s.pc ∧ t.mar = s.mar ∧ t.mbr = s.mbr ∧ t.ir = s.ir

/-! ## The floating-point unit -/

/-- R171 and R172 of spec/42_floating_point.md: the value of a word is the signed fraction times a power of two, its exponent
the 7-bit field read as two's complement, and the field is the exponent modulo 128. `fpScaled` is that value times 2^72. -/
def Obligations.WordValueIsSignedFractionTimesPowerOfTwo : Prop :=
  ∀ w : Word,
    let xf := w.toNat / 256 % 128
    let e : Int := if xf < 64 then xf else (xf : Int) - 128
    (fpScaled w : ℚ) / 2 ^ 72 =
        (-1) ^ (w.toNat / 32768) * (((w.toNat % 256 : ℕ) : ℚ) / 256) * (2 : ℚ) ^ e ∧
      e % 128 = xf

/-- spec/42_floating_point.md section 2 (R177, closed form): for a nonzero value `v = n / 2^72` with `2^(E-1) ≤ |v| < 2^E` the
encoder takes the exponent `clamp(E, -63, 63)` and the mantissa `min(255, floor(256 |v| / 2^e + 1/2))`; zero is 0x0000.
The encoder's points are the spec's decisions D6 to D10. -/
def Obligations.EncoderIsItsRationalClosedForm : Prop :=
  fpEncode 0 = 0 ∧
  ∀ (n : Int) (E : Int), (2 : ℚ) ^ (E - 1) ≤ |(n : ℚ) / 2 ^ 72| → |(n : ℚ) / 2 ^ 72| < (2 : ℚ) ^ E →
    let e : Int := max (-63) (min 63 E)
    ((fpEncode n).toNat : Int) =
      (if n < 0 then 32768 else 0) + e % 128 * 256 + min 255 ⌊256 * |(n : ℚ) / 2 ^ 72| / (2 : ℚ) ^ e + 1 / 2⌋

/-- spec/42_floating_point.md section 2 (R179 (a), (b)): inside the exponent range the encoded value is off by at most half a
unit of the last mantissa place, unless the fraction rounds to 256 and is cut to 255, where it is the 255 of that
exponent. Decisions D6 to D9. -/
def Obligations.EncoderErrsByAtMostHalfAUnit : Prop :=
  ∀ (n : Int) (e : Nat), 9 ≤ e → e ≤ 135 → 2 ^ (e - 1) ≤ n.natAbs → n.natAbs < 2 ^ e →
    (512 * n.natAbs < 511 * 2 ^ e → 2 * (fpScaled (fpEncode n) - n).natAbs ≤ 2 ^ (e - 8)) ∧
    (511 * 2 ^ e ≤ 512 * n.natAbs → (fpScaled (fpEncode n)).natAbs = 255 * 2 ^ (e - 8))

/-- spec/42_floating_point.md section 2 (R179 (c), (e), (f)): overflow saturates at the largest magnitude, the exponent -64 and
the word 0x8000 are never produced, and the sign bit is set exactly for a negative value. Decisions D6 to D10. -/
def Obligations.EncoderSaturatesAndAvoidsReservedWords : Prop :=
  ∀ n : Int,
    (2 ^ 135 ≤ n → fpEncode n = 0x3FFF) ∧ (n ≤ -2 ^ 135 → fpEncode n = 0xBFFF) ∧
    (fpEncode n).toNat / 256 % 128 ≠ 64 ∧ fpEncode n ≠ 0x8000 ∧ ((fpEncode n).msb = true ↔ n < 0)

/-- spec/42_floating_point.md section 3 (R180, R181): addition commutes in the word, the difference of a word with itself is
0x0000 (D10), subtracting is adding with bit 15 flipped, and an operand of value zero re-encodes the other (D6). -/
def Obligations.FloatAddAndSubtractLaws : Prop :=
  ∀ x y : Word, fpAdd x y = fpAdd y x ∧ fpSub x x = 0 ∧ fpSub x y = fpAdd x (y ^^^ 0x8000) ∧
    (y.toNat % 256 = 0 → fpAdd x y = fpEncode (fpScaled x))

/-- spec/42_floating_point.md section 3 (R183): the conversion to an integer is the nearest integer, a tie toward plus infinity
(D11), saturated to the signed 16-bit range. -/
def Obligations.ToIntegerRoundsAndSaturates : Prop :=
  ∀ w : Word, (fpToInt w).toInt = max (-32768) (min 32767 ⌊(fpScaled w : ℚ) / 2 ^ 72 + 1 / 2⌋)

/-- spec/42_floating_point.md section 3 (R184): the round trip of an integer is exact precisely when its magnitude has at most
8 significant bits. Decisions D7 to D9 and D11 are in the encoder and in the rounding. -/
def Obligations.IntegerRoundTripIsExactToEightBits : Prop :=
  ∀ w : Word, fpToInt (intToFp w) = w ↔ ∃ k j : Nat, k ≤ 255 ∧ w.toInt.natAbs = k * 2 ^ j

/-! ## The whole machine -/

/-- spec/60_exceptions.md section 5 (R269) and spec/40_cycle_and_effective_address.md section 5 (R133): every step and every
meaning answers a next state, from every state. -/
def Obligations.EveryStepCompletes : Prop :=
  (∀ s : State, ∃ t, step s = .next t) ∧ (∀ (i : Instr) (s : State), ∃ t, exec i s = .next t)

/-- The memory of the reset state is in its canonical form; the form is the model's own (log 1). -/
def Obligations.ResetMemoryIsCanonical : Prop := State.reset.Inv

/-- Every step keeps memory in its canonical form, inside the 2048 words of spec/20_memory.md section 1; the form is the model's
own (log 1). -/
def Obligations.EveryStepKeepsMemoryCanonical : Prop := ∀ s t : State, s.Inv → step s = .next t → t.Inv

/-- Every operation of the host (spec/44_host_operations.md section 5) keeps the canonical form too (log 1). -/
def Obligations.HostOperationsKeepMemoryCanonical : Prop := ∀ (op : HostOp) (s : State), s.Inv → (op.apply s).Inv

/-- spec/10_state.md section 6 (R39): after a cycle MBR equals IR and PC is one past MAR (D2, log 4), and a step keeps that
in HALTED (D14). -/
def Obligations.CycleLeavesStagingRegistersInStep : Prop :=
  ∀ s t : State, step s = .next t → (s.halted = true → s.Settled) → t.Settled

/-- spec/44_host_operations.md section 4 (R238) and section 5 (R242): a step in HALTED changes nothing, and no operation of the
host but power-on leaves HALTED. Both are the spec's decision D14. -/
def Obligations.HaltedIsTerminal : Prop :=
  ∀ s : State, s.halted = true →
    step s = .next s ∧ ∀ op : HostOp, op ≠ .powerOn → (op.apply s).halted = true

/-- spec/40_cycle_and_effective_address.md section 5 (R133): from every state the machine is in HALTED after at most 2049 steps:
2048 - PC + 1 from a PC in memory, one from a PC beyond it. -/
def Obligations.EveryRunHalts : Prop :=
  ∀ s : State,
    (∃ t, Sys2Proof.core.run 2049 s = .next t ∧ State.halted t = true) ∧
    (s.pc.toNat ≤ 2047 → ∃ t, Sys2Proof.core.run (2048 - s.pc.toNat + 1) s = .next t ∧ State.halted t = true) ∧
    (2048 ≤ s.pc.toNat → ∃ t, Sys2Proof.core.run 1 s = .next t ∧ State.halted t = true)

/-- spec/44_host_operations.md section 4 (R239, R240): a run executes cycles while the engine is not HALTED and the run is not
cancelled, and ends in HALTED when it is not cancelled; that a cancelled run, run again, goes on as if it had not been
cancelled is an inference from the two rules. -/
def Obligations.CancelledRunGoesOnWhereItStopped : Prop :=
  ∀ s : State, (runToHalt s).halted = true ∧ (s.halted = true → ∀ k, runFor k s = s) ∧
    (∀ k, s.halted = false → ∃ t, step s = .next t ∧ runFor (k + 1) s = runFor k t) ∧
    (∀ j k, runFor (j + k) s = runFor k (runFor j s)) ∧
    (∀ k, 2049 ≤ k → runFor k s = runToHalt s)

/-- spec/10_state.md section 2 (R27): no step writes an index register. -/
def Obligations.NoStepWritesAnIndexRegister : Prop := ∀ s t : State, step s = .next t → t.ixr = s.ixr

/-- spec/10_state.md section 2 (R29) and spec/40_cycle_and_effective_address.md section 5 (R134): a cycle leaves the engine HALTED
exactly when the word it fetched is HLT, an unknown opcode or one with a reserved operand (D4). -/
def Obligations.OnlyHaltingWordsHalt : Prop :=
  ∀ s t : State, s.halted = false → step s = .next t →
    t.halted = haltsOn (decodeWord (s.mem.read s.pc.toNat))

/-- spec/10_state.md section 3 (R33): the stream is append-only, a step and every operation of the host but power-on only add to
it. The stream is the spec's decision D16. -/
def Obligations.DiagnosticsAreAppendOnly : Prop :=
  ∀ s : State, (∀ t, step s = .next t → ∃ es, t.stream = s.stream ++ es) ∧
    (∀ op : HostOp, op ≠ .powerOn → ∃ es, (op.apply s).stream = s.stream ++ es)

/-- spec/10_state.md section 3 (R33): no rule reads the stream: two states that differ in it alone step to two states that
differ in it alone. The stream is the spec's decision D16. -/
def Obligations.StepNeverReadsTheDiagnostics : Prop :=
  ∀ (s t : State) (d : List Diag), step s = .next t →
    ∃ t', step { s with diags := d } = .next t' ∧ { t' with diags := [] } = { t with diags := [] }

/-- spec/44_host_operations.md section 3 (R235): writing IR, MAR or MBR has no effect on execution, since the next fetch
overwrites all three before anything reads them. -/
def Obligations.StagingRegistersAreNoInput : Prop :=
  ∀ (s : State) (a : AddrReg) (b c : Word), s.halted = false →
    step { s with mar := a, mbr := b, ir := c } = step s

/-- spec/20_memory.md section 5 (R65): after STR, STFR, VADD or VSUB the next fetch of any address of memory gets the word that
memory then holds there; at `ea` that is the register STR or STFR stored, and in the first vector, unless the second one
reaches into it from below (R216 (b), D12), the sum or the difference VADD or VSUB stored. -/
def Obligations.StoredWordIsTheNextWordFetched : Prop :=
  ∀ (r : Fin 4) (m : MemOperand) (s t : State) (pc : AddrReg), pc.toNat < 2048 →
    (∀ i ∈ [Instr.str r m, .stfr r m, .vadd r m, .vsub r m], exec i s = .next t →
      (fetch { t with pc := pc }).ir = t.mem.word pc.toNat) ∧
    (exec (.str r m) s = .next t → pc.toNat = s.ea m → (fetch { t with pc := pc }).ir = s.gpr[r]) ∧
    ∀ h : r.val < 2,
      let n := s.fr[r.val].toNat
      let a := (s.mem.read (s.ea m)).toNat
      let b := (s.mem.read (s.ea m + 1)).toNat
      (exec (.stfr r m) s = .next t → pc.toNat = s.ea m → (fetch { t with pc := pc }).ir = s.fr[r.val]) ∧
      (∀ i < n, ¬(b < a ∧ a < b + n) → pc.toNat = a + i →
        (exec (.vadd r m) s = .next t →
          (fetch { t with pc := pc }).ir = s.mem.word (a + i) + s.mem.read (b + i)) ∧
        (exec (.vsub r m) s = .next t →
          (fetch { t with pc := pc }).ir = s.mem.word (a + i) - s.mem.read (b + i)))

/-- spec/44_host_operations.md section 2 (R233): a load writes each word of the mapping, masked, drops an address out of range,
and changes no other word and no register. That it does nothing besides is the spec's decision D15. -/
def Obligations.LoadWritesExactlyItsMapping : Prop :=
  ∀ (p : List (Nat × Int)) (s : State), (p.map (·.1)).Nodup →
    (∀ a v, (a, v) ∈ p → a < 2048 → (load p s).mem.read a = mask16 v) ∧
    (∀ a, a ∉ p.map (·.1) → (load p s).mem.read a = s.mem.read a) ∧
    (load p s).halted = s.halted ∧ ∀ r, (load p s).readReg r = s.readReg r

/-! ## The assembler's view of the encoding -/

/-- spec/30_encoding.md section 5 (R95, R96): an instruction line whose operands fit assembles to the word of the instruction
they name; an absent operand is zero, `1` or `I` in the last place asks for indirection and anything else or nothing
there is direct. HLT assembles to 0x0000; that it does so whatever its operands is the model's choice (log 30). -/
def Obligations.AssembledLineIsTheEncodedInstruction : Prop :=
  (∀ (tbl : Symbols) (operands : List Text), assembleInstr tbl .hlt operands = .ok 0) ∧
  ∀ (tbl : Symbols) (o : Op) (r : Fin 4) (m : MemOperand) (tr tx ta ti : Text), o ≠ .hlt →
    operandValue tbl tr = r.val → operandValue tbl tx = m.ix.val → operandValue tbl ta = m.address.val →
    assembleInstr tbl o [] = .ok (encode (o.instr 0 ⟨0, false, 0⟩)) ∧
    assembleInstr tbl o [tr] = .ok (encode (o.instr r ⟨0, false, 0⟩)) ∧
    assembleInstr tbl o [tr, tx] = .ok (encode (o.instr r ⟨m.ix, false, 0⟩)) ∧
    assembleInstr tbl o [tr, tx, ta] = .ok (encode (o.instr r ⟨m.ix, false, m.address⟩)) ∧
    ((m.indirect = true ↔ ti = ['1'] ∨ ti = ['I']) →
      assembleInstr tbl o [tr, tx, ta, ti] = .ok (encode (o.instr r m)))

/-- spec/30_encoding.md section 5 (R100): a word put at an address is the word there, the last one wins, and no other address
changes. -/
def Obligations.LastEmittedWordWins : Prop :=
  ∀ (l : List (Nat × Word)) (a b : Nat) (v : Word),
    (putAt a v l).lookup b = if b = a then some v else l.lookup b

/-- spec/30_encoding.md section 5 (R103): a number below 8^6 is printed as six octal digits that denote it. -/
def Obligations.SixOctalDigitsDenoteTheNumber : Prop :=
  ∀ n : Nat, n < 8 ^ 6 → (octal6 n).length = 6 ∧ digitsValue 8 0 (octal6 n) = some n
end

