-- ==== Sys2Proof/Laws/Memory.lean ====
section
/-! SUPPORT. The laws of memory: a read after a write, and the canonical form is kept. They hold of every list of
bytes, canonical or not, but for the lemmas about `Memory.wf` itself. -/

namespace Sys2Proof.Machine

/-! ## Bytes -/

theorem Memory.byteAt_of_not_listed {m : Memory} {a : Nat} (h : ∀ c ∈ m, c.1 ≠ a) : m.byteAt a = 0 := by
  induction m with
  | nil => rfl
  | cons c m ih =>
    have hc : ¬c.1 = a := h c (by simp)
    simp [Memory.byteAt, hc, ih fun d hd => h d (by simp [hd])]

theorem Memory.byteAt_erase (m : Memory) (a b : Nat) :
    (m.erase a).byteAt b = if a = b then 0 else m.byteAt b := by
  induction m with
  | nil => simp [Memory.erase, Memory.byteAt]
  | cons c m ih =>
    unfold Memory.erase at ih ⊢
    by_cases hc : c.1 = a
    · rw [List.filter_cons_of_neg (by simp [hc]), ih]
      by_cases hb : a = b
      · simp [hb]
      · simp [Memory.byteAt, hc, hb]
    · rw [List.filter_cons_of_pos (by simp [hc])]
      by_cases hcb : c.1 = b
      · have hab : ¬a = b := fun h => hc (hcb.trans h.symm)
        simp [Memory.byteAt, hcb, hab]
      · simp [Memory.byteAt, hcb, ih]

theorem Memory.byteAt_insert {m : Memory} {a : Nat} (h : ∀ c ∈ m, c.1 ≠ a) (v : Byte) (b : Nat) :
    (m.insert a v).byteAt b = if a = b then v else m.byteAt b := by
  induction m with
  | nil => simp [Memory.insert, Memory.byteAt]
  | cons c m ih =>
    have hc : ¬c.1 = a := h c (by simp)
    have ih := ih fun d hd => h d (by simp [hd])
    unfold Memory.insert
    split
    · rfl
    · by_cases hcb : c.1 = b
      · have hab : ¬a = b := fun e => hc (hcb.trans e.symm)
        simp [Memory.byteAt, hcb, hab]
      · simp [Memory.byteAt, hcb, ih]

theorem Memory.not_listed_erase (m : Memory) (a : Nat) : ∀ c ∈ m.erase a, c.1 ≠ a := by
  intro c hc
  simpa using (List.mem_filter.mp hc).2

/-- A byte read after a byte written. -/
theorem Memory.byteAt_setByte (m : Memory) (a : Nat) (v : Byte) (b : Nat) :
    (m.setByte a v).byteAt b = if a = b then v else m.byteAt b := by
  unfold Memory.setByte
  split
  · next h =>
    rw [Memory.byteAt_erase]
    split <;> simp [h]
  · rw [Memory.byteAt_insert (Memory.not_listed_erase m a), Memory.byteAt_erase]
    split <;> simp [*]

/-! ## Words -/

@[simp] theorem wordOfBytes_lo_hi (w : Word) : wordOfBytes (loByte w) (hiByte w) = w := by
  apply BitVec.eq_of_toNat_eq
  have := w.isLt
  simp only [wordOfBytes, loByte, hiByte, BitVec.toNat_append, BitVec.extractLsb'_toNat, Nat.shiftLeft_eq]
  rw [Nat.mul_comm, ← Nat.two_pow_add_eq_or_of_lt (Nat.mod_lt _ (by decide))]
  simp only [Nat.shiftRight_eq_div_pow]
  omega

/-- A byte after a word is stored. -/
theorem Memory.byteAt_setWord (m : Memory) (a : Nat) (w : Word) (b : Nat) :
    (m.setWord a w).byteAt b = if b = 2 * a then loByte w else if b = 2 * a + 1 then hiByte w else m.byteAt b := by
  simp only [Memory.setWord, Memory.byteAt_setByte]
  by_cases h1 : b = 2 * a + 1
  · subst h1; simp
  · by_cases h2 : b = 2 * a
    · subst h2; simp
    · simp [Ne.symm h1, Ne.symm h2, h1, h2]

/-- A word read after a word written (spec/20_memory.md R54). -/
theorem Memory.word_setWord (m : Memory) (a : Nat) (w : Word) (b : Nat) :
    (m.setWord a w).word b = if a = b then w else m.word b := by
  simp only [Memory.word, Memory.byteAt_setWord]
  by_cases h : a = b
  · subst h; simp
  · have h1 : ¬(2 * b = 2 * a) := by omega
    have h2 : ¬(2 * b = 2 * a + 1) := by omega
    have h3 : ¬(2 * b + 1 = 2 * a) := by omega
    have h4 : ¬(2 * b + 1 = 2 * a + 1) := by omega
    simp [h, h1, h2, h3]

/-- A fail-soft read after a fail-soft write. -/
theorem Memory.read_write (m : Memory) (a : Nat) (w : Word) (b : Nat) :
    (m.write a w).read b = if a = b ∧ a < 2048 then w else m.read b := by
  unfold Memory.write Memory.read
  by_cases ha : a < 2048
  · by_cases hb : b < 2048
    · simp [ha, hb, Memory.word_setWord]
    · have hab : ¬a = b := by omega
      simp [ha, hb, hab]
  · simp [ha]

theorem Memory.read_write_same (m : Memory) {a : Nat} (h : a < 2048) (w : Word) : (m.write a w).read a = w := by
  simp [Memory.read_write, h]

theorem Memory.read_write_ne (m : Memory) {a b : Nat} (h : a ≠ b) (w : Word) :
    (m.write a w).read b = m.read b := by
  simp [Memory.read_write, h]

@[simp] theorem Memory.write_out_of_range (m : Memory) {a : Nat} (h : 2048 ≤ a) (w : Word) : m.write a w = m := by
  simp [Memory.write, Nat.not_lt.mpr h]

@[simp] theorem Memory.read_out_of_range (m : Memory) {a : Nat} (h : 2048 ≤ a) : m.read a = 0 := by
  simp [Memory.read, Nat.not_lt.mpr h]

/-- A byte outside the two of the word written. -/
theorem Memory.byteAt_write_ne (m : Memory) (a : Nat) (w : Word) {b : Nat} (h : b / 2 ≠ a) :
    (m.write a w).byteAt b = m.byteAt b := by
  unfold Memory.write
  split
  · rw [Memory.byteAt_setWord]
    have h1 : ¬b = 2 * a := by omega
    have h2 : ¬b = 2 * a + 1 := by omega
    simp [h1, h2]
  · rfl

@[simp] theorem Memory.read_nil (a : Nat) : Memory.read [] a = 0 := by
  unfold Memory.read Memory.word
  split <;> simp [Memory.byteAt, wordOfBytes]

/-! ## The canonical form -/

theorem Memory.wf_nil : Memory.wf [] := by simp [Memory.wf]

theorem Memory.wf_erase {m : Memory} (h : m.wf) (a : Nat) : (m.erase a).wf := by
  refine ⟨List.Pairwise.filter _ h.1, fun c hc => h.2 c ?_⟩
  exact (List.mem_filter.mp hc).1

theorem Memory.mem_insert {m : Memory} {a : Nat} {v : Byte} {c : Host.Cell} (h : c ∈ m.insert a v) :
    c = (a, v) ∨ c ∈ m := by
  induction m with
  | nil => simpa [Memory.insert] using h
  | cons d m ih =>
    unfold Memory.insert at h
    split at h
    · simpa using h
    · rcases List.mem_cons.mp h with h | h
      · simp [h]
      · rcases ih h with h | h <;> simp [h]

theorem Memory.wf_insert {m : Memory} (h : m.wf) {a : Nat} {v : Byte} (ha : a < 4096) (hv : v ≠ 0)
    (hn : ∀ c ∈ m, c.1 ≠ a) : (m.insert a v).wf := by
  refine ⟨?_, fun c hc => ?_⟩
  · induction m with
    | nil => simp [Memory.insert]
    | cons d m ih =>
      obtain ⟨hp, hb⟩ := h
      rw [List.pairwise_cons] at hp
      unfold Memory.insert
      split
      · next hlt =>
        rw [List.pairwise_cons]
        refine ⟨fun c hc => ?_, List.pairwise_cons.mpr hp⟩
        rcases List.mem_cons.mp hc with hc | hc
        · simpa [hc] using hlt
        · exact lt_trans hlt (hp.1 c hc)
      · next hge =>
        rw [List.pairwise_cons]
        refine ⟨fun c hc => ?_, ih ⟨hp.2, fun c hc => hb c (by simp [hc])⟩ fun c hc => hn c (by simp [hc])⟩
        rcases Memory.mem_insert hc with hc | hc
        · have hd : d.1 ≠ a := hn d (by simp)
          have hge' : ¬a < d.1 := hge
          simp only [hc]
          omega
        · exact hp.1 c hc
  · rcases Memory.mem_insert hc with hc | hc
    · simp only [hc]
      exact ⟨ha, hv⟩
    · exact h.2 c hc

theorem Memory.wf_setByte {m : Memory} (h : m.wf) {a : Nat} (ha : a < 4096) (v : Byte) : (m.setByte a v).wf := by
  unfold Memory.setByte
  split
  · exact Memory.wf_erase h a
  · next hv => exact Memory.wf_insert (Memory.wf_erase h a) ha hv (Memory.not_listed_erase m a)

/-- Every word written keeps the canonical form, wherever it goes. -/
theorem Memory.wf_write {m : Memory} (h : m.wf) (a : Nat) (w : Word) : (m.write a w).wf := by
  unfold Memory.write
  split
  · next ha =>
    have ha : a < 2048 := ha
    exact Memory.wf_setByte (Memory.wf_setByte h (by omega) _) (by omega) _
  · exact h

/-- Equal reads are equal bytes. -/
theorem wordOfBytes_inj {a b c d : Byte} (h : wordOfBytes a b = wordOfBytes c d) : a = c ∧ b = d := by
  have h1 := congrArg loByte h
  have h2 := congrArg hiByte h
  have e : ∀ x y : Byte, loByte (wordOfBytes x y) = x := by
    intro x y
    unfold loByte wordOfBytes
    exact BitVec.extractLsb'_append_eq_right
  have e' : ∀ x y : Byte, hiByte (wordOfBytes x y) = y := by
    intro x y
    unfold hiByte wordOfBytes
    exact BitVec.extractLsb'_append_eq_left
  rw [e, e] at h1
  rw [e', e'] at h2
  exact ⟨h1, h2⟩

end Sys2Proof.Machine
end

