-- ==== Sys2Proof/Laws/State.lean ====
section
/-! SUPPORT. One lemma per field per update of the state, so that no later proof unfolds a record update. -/

namespace Sys2Proof.Machine

variable (s : State)

/-! ### emit -/

@[simp] theorem State.emit_pc (d : Diag) : (s.emit d).pc = s.pc := rfl
@[simp] theorem State.emit_mar (d : Diag) : (s.emit d).mar = s.mar := rfl
@[simp] theorem State.emit_mbr (d : Diag) : (s.emit d).mbr = s.mbr := rfl
@[simp] theorem State.emit_ir (d : Diag) : (s.emit d).ir = s.ir := rfl
@[simp] theorem State.emit_gpr (d : Diag) : (s.emit d).gpr = s.gpr := rfl
@[simp] theorem State.emit_ixr (d : Diag) : (s.emit d).ixr = s.ixr := rfl
@[simp] theorem State.emit_fr (d : Diag) : (s.emit d).fr = s.fr := rfl
@[simp] theorem State.emit_halted (d : Diag) : (s.emit d).halted = s.halted := rfl
@[simp] theorem State.emit_mem (d : Diag) : (s.emit d).mem = s.mem := rfl
@[simp] theorem State.emit_diags (d : Diag) : (s.emit d).diags = d :: s.diags := rfl

/-! ### halt -/

@[simp] theorem State.halt_pc : s.halt.pc = s.pc := rfl
@[simp] theorem State.halt_mar : s.halt.mar = s.mar := rfl
@[simp] theorem State.halt_mbr : s.halt.mbr = s.mbr := rfl
@[simp] theorem State.halt_ir : s.halt.ir = s.ir := rfl
@[simp] theorem State.halt_gpr : s.halt.gpr = s.gpr := rfl
@[simp] theorem State.halt_ixr : s.halt.ixr = s.ixr := rfl
@[simp] theorem State.halt_fr : s.halt.fr = s.fr := rfl
@[simp] theorem State.halt_halted : s.halt.halted = true := rfl
@[simp] theorem State.halt_mem : s.halt.mem = s.mem := rfl
@[simp] theorem State.halt_diags : s.halt.diags = s.diags := rfl

/-! ### setGpr -/

@[simp] theorem State.setGpr_pc (i : Fin 4) (w : Word) : (s.setGpr i w).pc = s.pc := rfl
@[simp] theorem State.setGpr_mar (i : Fin 4) (w : Word) : (s.setGpr i w).mar = s.mar := rfl
@[simp] theorem State.setGpr_mbr (i : Fin 4) (w : Word) : (s.setGpr i w).mbr = s.mbr := rfl
@[simp] theorem State.setGpr_ir (i : Fin 4) (w : Word) : (s.setGpr i w).ir = s.ir := rfl
@[simp] theorem State.setGpr_gpr (i : Fin 4) (w : Word) : (s.setGpr i w).gpr = s.gpr.set i.val w i.isLt := rfl
@[simp] theorem State.setGpr_ixr (i : Fin 4) (w : Word) : (s.setGpr i w).ixr = s.ixr := rfl
@[simp] theorem State.setGpr_fr (i : Fin 4) (w : Word) : (s.setGpr i w).fr = s.fr := rfl
@[simp] theorem State.setGpr_halted (i : Fin 4) (w : Word) : (s.setGpr i w).halted = s.halted := rfl
@[simp] theorem State.setGpr_mem (i : Fin 4) (w : Word) : (s.setGpr i w).mem = s.mem := rfl
@[simp] theorem State.setGpr_diags (i : Fin 4) (w : Word) : (s.setGpr i w).diags = s.diags := rfl

/-! ### setFr -/

@[simp] theorem State.setFr_pc (i : Fin 2) (w : Word) : (s.setFr i w).pc = s.pc := rfl
@[simp] theorem State.setFr_mar (i : Fin 2) (w : Word) : (s.setFr i w).mar = s.mar := rfl
@[simp] theorem State.setFr_mbr (i : Fin 2) (w : Word) : (s.setFr i w).mbr = s.mbr := rfl
@[simp] theorem State.setFr_ir (i : Fin 2) (w : Word) : (s.setFr i w).ir = s.ir := rfl
@[simp] theorem State.setFr_gpr (i : Fin 2) (w : Word) : (s.setFr i w).gpr = s.gpr := rfl
@[simp] theorem State.setFr_ixr (i : Fin 2) (w : Word) : (s.setFr i w).ixr = s.ixr := rfl
@[simp] theorem State.setFr_fr (i : Fin 2) (w : Word) : (s.setFr i w).fr = s.fr.set i.val w i.isLt := rfl
@[simp] theorem State.setFr_halted (i : Fin 2) (w : Word) : (s.setFr i w).halted = s.halted := rfl
@[simp] theorem State.setFr_mem (i : Fin 2) (w : Word) : (s.setFr i w).mem = s.mem := rfl
@[simp] theorem State.setFr_diags (i : Fin 2) (w : Word) : (s.setFr i w).diags = s.diags := rfl

/-! ### setIxr -/

@[simp] theorem State.setIxr_pc (i : Fin 3) (w : Word) : (s.setIxr i w).pc = s.pc := rfl
@[simp] theorem State.setIxr_mar (i : Fin 3) (w : Word) : (s.setIxr i w).mar = s.mar := rfl
@[simp] theorem State.setIxr_mbr (i : Fin 3) (w : Word) : (s.setIxr i w).mbr = s.mbr := rfl
@[simp] theorem State.setIxr_ir (i : Fin 3) (w : Word) : (s.setIxr i w).ir = s.ir := rfl
@[simp] theorem State.setIxr_gpr (i : Fin 3) (w : Word) : (s.setIxr i w).gpr = s.gpr := rfl
@[simp] theorem State.setIxr_ixr (i : Fin 3) (w : Word) : (s.setIxr i w).ixr = s.ixr.set i.val w i.isLt := rfl
@[simp] theorem State.setIxr_fr (i : Fin 3) (w : Word) : (s.setIxr i w).fr = s.fr := rfl
@[simp] theorem State.setIxr_halted (i : Fin 3) (w : Word) : (s.setIxr i w).halted = s.halted := rfl
@[simp] theorem State.setIxr_mem (i : Fin 3) (w : Word) : (s.setIxr i w).mem = s.mem := rfl
@[simp] theorem State.setIxr_diags (i : Fin 3) (w : Word) : (s.setIxr i w).diags = s.diags := rfl

/-! ### noteRead: only the stream can change -/

@[simp] theorem State.noteRead_pc (a : Nat) : (s.noteRead a).pc = s.pc := by unfold State.noteRead; split <;> rfl
@[simp] theorem State.noteRead_mar (a : Nat) : (s.noteRead a).mar = s.mar := by unfold State.noteRead; split <;> rfl
@[simp] theorem State.noteRead_mbr (a : Nat) : (s.noteRead a).mbr = s.mbr := by unfold State.noteRead; split <;> rfl
@[simp] theorem State.noteRead_ir (a : Nat) : (s.noteRead a).ir = s.ir := by unfold State.noteRead; split <;> rfl
@[simp] theorem State.noteRead_gpr (a : Nat) : (s.noteRead a).gpr = s.gpr := by unfold State.noteRead; split <;> rfl
@[simp] theorem State.noteRead_ixr (a : Nat) : (s.noteRead a).ixr = s.ixr := by unfold State.noteRead; split <;> rfl
@[simp] theorem State.noteRead_fr (a : Nat) : (s.noteRead a).fr = s.fr := by unfold State.noteRead; split <;> rfl
@[simp] theorem State.noteRead_halted (a : Nat) : (s.noteRead a).halted = s.halted := by unfold State.noteRead; split <;> rfl
@[simp] theorem State.noteRead_mem (a : Nat) : (s.noteRead a).mem = s.mem := by unfold State.noteRead; split <;> rfl
theorem State.noteRead_diags (a : Nat) :
    (s.noteRead a).diags = if a < 2048 then s.diags else .outOfRangeRead a :: s.diags := by unfold State.noteRead; split <;> rfl

/-! ### noteWrite: only the stream can change -/

@[simp] theorem State.noteWrite_pc (a : Nat) : (s.noteWrite a).pc = s.pc := by unfold State.noteWrite; split <;> rfl
@[simp] theorem State.noteWrite_mar (a : Nat) : (s.noteWrite a).mar = s.mar := by unfold State.noteWrite; split <;> rfl
@[simp] theorem State.noteWrite_mbr (a : Nat) : (s.noteWrite a).mbr = s.mbr := by unfold State.noteWrite; split <;> rfl
@[simp] theorem State.noteWrite_ir (a : Nat) : (s.noteWrite a).ir = s.ir := by unfold State.noteWrite; split <;> rfl
@[simp] theorem State.noteWrite_gpr (a : Nat) : (s.noteWrite a).gpr = s.gpr := by unfold State.noteWrite; split <;> rfl
@[simp] theorem State.noteWrite_ixr (a : Nat) : (s.noteWrite a).ixr = s.ixr := by unfold State.noteWrite; split <;> rfl
@[simp] theorem State.noteWrite_fr (a : Nat) : (s.noteWrite a).fr = s.fr := by unfold State.noteWrite; split <;> rfl
@[simp] theorem State.noteWrite_halted (a : Nat) : (s.noteWrite a).halted = s.halted := by unfold State.noteWrite; split <;> rfl
@[simp] theorem State.noteWrite_mem (a : Nat) : (s.noteWrite a).mem = s.mem := by unfold State.noteWrite; split <;> rfl
theorem State.noteWrite_diags (a : Nat) :
    (s.noteWrite a).diags = if a < 2048 then s.diags else .outOfRangeWrite a :: s.diags := by unfold State.noteWrite; split <;> rfl

/-! ### resolve: only the stream can change -/

@[simp] theorem State.resolve_pc (m : MemOperand) : (s.resolve m).pc = s.pc := by unfold State.resolve; split <;> simp
@[simp] theorem State.resolve_mar (m : MemOperand) : (s.resolve m).mar = s.mar := by unfold State.resolve; split <;> simp
@[simp] theorem State.resolve_mbr (m : MemOperand) : (s.resolve m).mbr = s.mbr := by unfold State.resolve; split <;> simp
@[simp] theorem State.resolve_ir (m : MemOperand) : (s.resolve m).ir = s.ir := by unfold State.resolve; split <;> simp
@[simp] theorem State.resolve_gpr (m : MemOperand) : (s.resolve m).gpr = s.gpr := by unfold State.resolve; split <;> simp
@[simp] theorem State.resolve_ixr (m : MemOperand) : (s.resolve m).ixr = s.ixr := by unfold State.resolve; split <;> simp
@[simp] theorem State.resolve_fr (m : MemOperand) : (s.resolve m).fr = s.fr := by unfold State.resolve; split <;> simp
@[simp] theorem State.resolve_halted (m : MemOperand) : (s.resolve m).halted = s.halted := by unfold State.resolve; split <;> simp
@[simp] theorem State.resolve_mem (m : MemOperand) : (s.resolve m).mem = s.mem := by unfold State.resolve; split <;> simp
theorem State.resolve_diags (m : MemOperand) : (s.resolve m).diags =
    if m.indirect = true ∧ 2048 ≤ s.indexed m then .outOfRangeRead (s.indexed m) :: s.diags else s.diags := by
  unfold State.resolve
  by_cases h : m.indirect = true <;> simp [h, State.noteRead_diags]
  by_cases h' : s.indexed m < 2048 <;> simp [h', Nat.not_le.mpr]

/-! ### raiseHalting -/

@[simp] theorem raiseHalting_pc (d : Diag) : (raiseHalting d s).pc = s.pc := rfl
@[simp] theorem raiseHalting_mar (d : Diag) : (raiseHalting d s).mar = s.mar := rfl
@[simp] theorem raiseHalting_mbr (d : Diag) : (raiseHalting d s).mbr = s.mbr := rfl
@[simp] theorem raiseHalting_ir (d : Diag) : (raiseHalting d s).ir = s.ir := rfl
@[simp] theorem raiseHalting_gpr (d : Diag) : (raiseHalting d s).gpr = s.gpr := rfl
@[simp] theorem raiseHalting_ixr (d : Diag) : (raiseHalting d s).ixr = s.ixr := rfl
@[simp] theorem raiseHalting_fr (d : Diag) : (raiseHalting d s).fr = s.fr := rfl
@[simp] theorem raiseHalting_halted (d : Diag) : (raiseHalting d s).halted = true := rfl
@[simp] theorem raiseHalting_mem (d : Diag) : (raiseHalting d s).mem = s.mem := rfl
@[simp] theorem raiseHalting_diags (d : Diag) : (raiseHalting d s).diags = d :: s.diags := rfl

/-! ### memWrite -/

@[simp] theorem memWrite_pc (a : Nat) (w : Word) : (memWrite a w s).pc = s.pc := by simp [memWrite]
@[simp] theorem memWrite_mar (a : Nat) (w : Word) : (memWrite a w s).mar = s.mar := by simp [memWrite]
@[simp] theorem memWrite_mbr (a : Nat) (w : Word) : (memWrite a w s).mbr = s.mbr := by simp [memWrite]
@[simp] theorem memWrite_ir (a : Nat) (w : Word) : (memWrite a w s).ir = s.ir := by simp [memWrite]
@[simp] theorem memWrite_gpr (a : Nat) (w : Word) : (memWrite a w s).gpr = s.gpr := by simp [memWrite]
@[simp] theorem memWrite_ixr (a : Nat) (w : Word) : (memWrite a w s).ixr = s.ixr := by simp [memWrite]
@[simp] theorem memWrite_fr (a : Nat) (w : Word) : (memWrite a w s).fr = s.fr := by simp [memWrite]
@[simp] theorem memWrite_halted (a : Nat) (w : Word) : (memWrite a w s).halted = s.halted := by simp [memWrite]
@[simp] theorem memWrite_mem (a : Nat) (w : Word) : (memWrite a w s).mem = s.mem.write a w := rfl
@[simp] theorem memWrite_diags (a : Nat) (w : Word) : (memWrite a w s).diags = (s.noteWrite a).diags := rfl

end Sys2Proof.Machine
end

