-- ==== Sys2Proof/Laws/Ops.lean ====
section
/-! SUPPORT. For each shared operation, what it can do, said once: the fetch step, the two primitives, the
effective-address step, the reserved-operand check, the events. -/

namespace Sys2Proof.Machine

/-! ## Events -/

theorem State.noteRead_eq (s : State) (a : Nat) : s.noteRead a = { s with diags := readEvents a ++ s.diags } := by
  unfold State.noteRead readEvents
  split <;> rfl

theorem State.noteWrite_eq (s : State) (a : Nat) : s.noteWrite a = { s with diags := writeEvents a ++ s.diags } := by
  unfold State.noteWrite writeEvents
  split <;> rfl

theorem State.resolve_eq (s : State) (m : MemOperand) :
    s.resolve m = { s with diags := s.eaEvents m ++ s.diags } := by
  unfold State.resolve State.eaEvents
  split
  · exact s.noteRead_eq _
  · rfl

/-! ## The primitives -/

/-- A read: its value, and a state that differs in the stream alone. -/
theorem memRead_eq (a : Nat) (s : State) :
    memRead a s = (s.mem.read a, { s with diags := readEvents a ++ s.diags }) := by
  rw [memRead, State.noteRead_eq]

/-- A write: memory and the stream alone change. -/
theorem memWrite_eq (a : Nat) (w : Word) (s : State) :
    memWrite a w s = { s with mem := s.mem.write a w, diags := writeEvents a ++ s.diags } := by
  rw [memWrite, State.noteWrite_eq]

/-- The effective-address step: its value, and a state that differs in the stream alone. -/
theorem effectiveAddress_eq (m : MemOperand) (s : State) :
    effectiveAddress m s = (s.ea m, { s with diags := s.eaEvents m ++ s.diags }) := by
  rw [effectiveAddress, State.resolve_eq]

/-- The fetch step. -/
theorem fetch_eq (s : State) :
    fetch s = { s with mar := s.pc, mbr := s.mem.read s.pc.toNat, ir := s.mem.read s.pc.toNat, pc := s.pc + 1,
                       diags := readEvents s.pc.toNat ++ s.diags } := by
  simp only [fetch, memRead_eq]

@[simp] theorem fetch_ir (s : State) : (fetch s).ir = s.mem.read s.pc.toNat := rfl
@[simp] theorem fetch_mbr (s : State) : (fetch s).mbr = s.mem.read s.pc.toNat := rfl
@[simp] theorem fetch_mar (s : State) : (fetch s).mar = s.pc := rfl
@[simp] theorem fetch_pc (s : State) : (fetch s).pc = s.pc + 1 := rfl
@[simp] theorem fetch_gpr (s : State) : (fetch s).gpr = s.gpr := by rw [fetch_eq]
@[simp] theorem fetch_ixr (s : State) : (fetch s).ixr = s.ixr := by rw [fetch_eq]
@[simp] theorem fetch_fr (s : State) : (fetch s).fr = s.fr := by rw [fetch_eq]
@[simp] theorem fetch_halted (s : State) : (fetch s).halted = s.halted := by rw [fetch_eq]
@[simp] theorem fetch_mem (s : State) : (fetch s).mem = s.mem := by rw [fetch_eq]

/-! ## The effective address reads only the index registers and memory -/

theorem State.indexed_congr {s t : State} (h : t.ixr = s.ixr) (m : MemOperand) : t.indexed m = s.indexed m := by
  simp only [State.indexed, State.indexValue, h]

theorem State.ea_congr {s t : State} (h : t.ixr = s.ixr) (hm : t.mem = s.mem) (m : MemOperand) : t.ea m = s.ea m := by
  simp only [State.ea, State.indexed_congr h m, hm]

/-- The index register that IX selects adds at most 65535 (R126). -/
theorem State.indexValue_le (s : State) (ix : Fin 4) : s.indexValue ix ≤ 65535 := by
  unfold State.indexValue
  split
  · omega
  · have := (s.ixr[ix.val - 1]'(by have := ix.isLt; omega)).isLt
    omega

/-! ## The floating-point operations through the one encoder (spec/42_floating_point.md R180 to R182) -/

theorem fpAdd_eq (x y : Word) : fpAdd x y = fpEncode (fpScaled x + fpScaled y) := rfl
theorem fpSub_eq (x y : Word) : fpSub x y = fpEncode (fpScaled x - fpScaled y) := rfl
theorem intToFp_eq (w : Word) : intToFp w = fpEncode (w.toInt * 2 ^ 72) := rfl

/-! ## The reserved-operand check -/

theorem frSelect_of_lt {r : Fin 4} (h : r.val < 2) : frSelect r = some ⟨r.val, h⟩ := by simp [frSelect, h]

theorem frSelect_of_le {r : Fin 4} (h : 2 ≤ r.val) : frSelect r = none := by simp [frSelect, Nat.not_lt.mpr h]

/-- With FR0 or FR1 the body runs. -/
theorem withFr_of_lt {r : Fin 4} (h : r.val < 2) (s : State) (body : Fin 2 → State) :
    withFr r s body = .next (body ⟨r.val, h⟩) := by
  rw [withFr, frSelect_of_lt h]

/-- With R of 2 or 3 the event is raised and nothing else happens. -/
theorem withFr_of_le {r : Fin 4} (h : 2 ≤ r.val) (s : State) (body : Fin 2 → State) :
    withFr r s body = .next (raiseReservedOperand s) := by
  rw [withFr, frSelect_of_le h]

/-- What the check answers is always a next state: the event's or the body's. -/
theorem withFr_cases {r : Fin 4} {s : State} {body : Fin 2 → State} {t : State} (h : withFr r s body = .next t) :
    (2 ≤ r.val ∧ t = raiseReservedOperand s) ∨ ∃ hr : r.val < 2, t = body ⟨r.val, hr⟩ := by
  by_cases hr : r.val < 2
  · rw [withFr_of_lt hr] at h
    cases h
    exact .inr ⟨hr, rfl⟩
  · rw [withFr_of_le (Nat.not_lt.mp hr)] at h
    cases h
    exact .inl ⟨Nat.not_lt.mp hr, rfl⟩

/-- The event of a reserved operand, in full. -/
theorem raiseReservedOperand_eq (s : State) :
    raiseReservedOperand s = { s with halted := true, diags := .reservedOperand s.ir :: s.diags } := rfl

/-- The event of an unknown opcode, in full. -/
theorem raiseUnknownOpcode_eq (op : Fin 64) (s : State) :
    raiseUnknownOpcode op s = { s with halted := true, diags := .unknownOpcode op :: s.diags } := rfl

end Sys2Proof.Machine
end

