-- ==== Sys2Proof/Laws/PerInstr.lean ====
section
/-! SUPPORT. Statements about every instruction as syntax, one lemma per constructor (LAWS.json). -/

namespace Sys2Proof.Laws.OpcodeRow

/-- The row that the opcode of an instruction selects is the instruction's own, and builds it from its fields. -/
def Statement (i : Instr) : Prop := Op.ofCode i.op.code = some i.op ∧ i.op.instr i.r i.mem = i

theorem hlt (r : Fin 4) (m : MemOperand) : Statement (.hlt r m) := ⟨by rfl, rfl⟩
theorem ldr (r : Fin 4) (m : MemOperand) : Statement (.ldr r m) := ⟨by rfl, rfl⟩
theorem str (r : Fin 4) (m : MemOperand) : Statement (.str r m) := ⟨by rfl, rfl⟩
theorem fadd (r : Fin 4) (m : MemOperand) : Statement (.fadd r m) := ⟨by rfl, rfl⟩
theorem fsub (r : Fin 4) (m : MemOperand) : Statement (.fsub r m) := ⟨by rfl, rfl⟩
theorem vadd (r : Fin 4) (m : MemOperand) : Statement (.vadd r m) := ⟨by rfl, rfl⟩
theorem vsub (r : Fin 4) (m : MemOperand) : Statement (.vsub r m) := ⟨by rfl, rfl⟩
theorem cnvrt (r : Fin 4) (m : MemOperand) : Statement (.cnvrt r m) := ⟨by rfl, rfl⟩
theorem ldfr (r : Fin 4) (m : MemOperand) : Statement (.ldfr r m) := ⟨by rfl, rfl⟩
theorem stfr (r : Fin 4) (m : MemOperand) : Statement (.stfr r m) := ⟨by rfl, rfl⟩

end Sys2Proof.Laws.OpcodeRow
end

