-- ==== Sys2Proof/Laws/Run.lean ====
section
/-! SUPPORT. The host's run of a machine, one step at a time. -/

namespace Sys2Proof.Machine

/-- A run of any machine goes on from the next state. -/
theorem run_succ_of_next (M : Host.Core) {s t : M.State} (h : M.step s = .next t) (k : Nat) :
    M.run (k + 1) s = M.run k t := by
  rw [Host.Core.run, h]

theorem core_run_zero (s : State) : Sys2Proof.core.run 0 s = .next s := rfl

theorem core_run_succ {s t : State} (h : step s = .next t) (k : Nat) :
    Sys2Proof.core.run (k + 1) s = Sys2Proof.core.run k t :=
  run_succ_of_next Sys2Proof.core h k

/-- A step in HALTED changes nothing (spec/44_host_operations.md R238). -/
theorem step_of_halted {s : State} (h : s.halted = true) : step s = .next s := by simp [step, h]

theorem core_run_of_halted {s : State} (h : s.halted = true) (k : Nat) : Sys2Proof.core.run k s = .next s := by
  induction k with
  | zero => rfl
  | succ k ih => exact (core_run_succ (step_of_halted h) k).trans ih

end Sys2Proof.Machine
end

