-- ==== Sys2Proof/Laws/Vector.lean ====
section
/-! SUPPORT. What the vector unit can do: it touches memory and the stream only, it keeps the canonical form, and its
loop is its element operation, one index after another. -/

namespace Sys2Proof.Machine

/-- The element of an operation as 16-bit modular arithmetic (spec/43_vector.md R214). -/
def VecOp.onWords : VecOp → Word → Word → Word
  | .add, x, y => x + y
  | .sub, x, y => x - y

theorem VecOp.mask16_onInts (op : VecOp) (x y : Word) : mask16 (op.onInts x.toInt y.toInt) = op.onWords x y := by
  cases op
  · simp [mask16, VecOp.onInts, VecOp.onWords, BitVec.ofInt_add]
  · simp [mask16, VecOp.onInts, VecOp.onWords, Int.sub_eq_add_neg, BitVec.ofInt_add, BitVec.ofInt_neg, BitVec.sub_eq_add_neg]

/-- One element, in full. -/
theorem vectorElement_eq (op : VecOp) (a b : Nat) (s : State) :
    vectorElement op a b s =
      { s with mem := s.mem.write a (op.onWords (s.mem.read a) (s.mem.read b)),
               diags := writeEvents a ++ (readEvents b ++ (readEvents a ++ s.diags)) } := by
  simp only [vectorElement, memRead_eq, memWrite_eq, VecOp.mask16_onInts]

/-- The loop from its other end: the last element comes last. -/
theorem vectorLoop_succ (op : VecOp) (a b : Nat) (n i : Nat) (s : State) :
    vectorLoop op a b (n + 1) i s = vectorElement op (a + (i + n)) (b + (i + n)) (vectorLoop op a b n i s) := by
  induction n generalizing i s with
  | zero => rfl
  | succ n ih =>
    rw [vectorLoop, ih, vectorLoop]
    have : i + 1 + n = i + (n + 1) := by omega
    rw [this]

/-- The loop touches memory and the stream only. -/
theorem vectorLoop_frame (op : VecOp) (a b n i : Nat) (s : State) :
    vectorLoop op a b n i s =
      { s with mem := (vectorLoop op a b n i s).mem, diags := (vectorLoop op a b n i s).diags } := by
  induction n generalizing i s with
  | zero => rfl
  | succ n ih =>
    rw [vectorLoop, ih, vectorElement_eq]

/-- The loop appends to the stream and takes nothing away. -/
theorem vectorLoop_diags (op : VecOp) (a b n i : Nat) (s : State) :
    ∃ es, (vectorLoop op a b n i s).diags = es ++ s.diags := by
  induction n generalizing i s with
  | zero => exact ⟨[], rfl⟩
  | succ n ih =>
    obtain ⟨es, h⟩ := ih (i + 1) (vectorElement op (a + i) (b + i) s)
    refine ⟨es ++ (writeEvents (a + i) ++ (readEvents (b + i) ++ readEvents (a + i))), ?_⟩
    rw [vectorLoop, h, vectorElement_eq]
    simp

theorem vectorLoop_wf (op : VecOp) (a b n i : Nat) {s : State} (h : s.mem.wf) : (vectorLoop op a b n i s).mem.wf := by
  induction n generalizing i s with
  | zero => exact h
  | succ n ih =>
    rw [vectorLoop]
    apply ih
    rw [vectorElement_eq]
    exact Memory.wf_write h _ _

/-- The loop's memory depends on memory alone. -/
theorem vectorLoop_mem_congr (op : VecOp) (a b n i : Nat) {s t : State} (h : t.mem = s.mem) :
    (vectorLoop op a b n i t).mem = (vectorLoop op a b n i s).mem := by
  induction n generalizing i s t with
  | zero => exact h
  | succ n ih =>
    rw [vectorLoop, vectorLoop]
    apply ih
    simp only [vectorElement_eq, h]

/-- The whole operation: nothing for length 0, else the two pointer reads and the loop. -/
theorem vectorOp_zero (op : VecOp) (p : Nat) (s : State) : vectorOp op 0 p s = s := rfl

theorem vectorOp_pos (op : VecOp) {n : Nat} (h : n ≠ 0) (p : Nat) (s : State) :
    vectorOp op n p s =
      vectorLoop op (s.mem.read p).toNat (s.mem.read (p + 1)).toNat n 0
        { s with diags := readEvents (p + 1) ++ (readEvents p ++ s.diags) } := by
  simp only [vectorOp, h, if_false, memRead_eq]

theorem vectorOp_frame (op : VecOp) (n p : Nat) (s : State) :
    vectorOp op n p s = { s with mem := (vectorOp op n p s).mem, diags := (vectorOp op n p s).diags } := by
  by_cases h : n = 0
  · subst h; rfl
  · rw [vectorOp_pos op h, vectorLoop_frame]

/-- The operation appends to the stream and takes nothing away. -/
theorem vectorOp_diags (op : VecOp) (n p : Nat) (s : State) : ∃ es, (vectorOp op n p s).diags = es ++ s.diags := by
  by_cases h : n = 0
  · subst h; exact ⟨[], rfl⟩
  · obtain ⟨es, he⟩ := vectorLoop_diags op (s.mem.read p).toNat (s.mem.read (p + 1)).toNat n 0
      { s with diags := readEvents (p + 1) ++ (readEvents p ++ s.diags) }
    exact ⟨es ++ (readEvents (p + 1) ++ readEvents p), by rw [vectorOp_pos op h, he]; simp⟩

theorem vectorOp_wf (op : VecOp) (n p : Nat) {s : State} (h : s.mem.wf) : (vectorOp op n p s).mem.wf := by
  by_cases hn : n = 0
  · subst hn; exact h
  · rw [vectorOp_pos op hn]
    exact vectorLoop_wf op _ _ _ _ h

end Sys2Proof.Machine
end

