-- ==== Sys2Proof/Tests/Slice0.lean ====
section
/-! SUPPORT. Tests. Words and expected values are those of spec/95_test_vectors.md, by the vector's name, or worked out by
hand from the rule named. The theorems witness_… show that the hypotheses of an obligation can be met, at the ends of
their ranges where they have any. -/

open Sys2Proof Sys2Proof.Machine

namespace Sys2Proof.Tests

/-- A direct, unindexed operand. -/
def dir (a : Fin 32) : MemOperand := ⟨0, false, a⟩

/-- The power-on state with words loaded, registers written and PC set. -/
def start (words : List (Nat × Int)) (regs : List (RegName × Int)) (pc : Int) : State := boot words regs pc

/-- One step of it. -/
def one (words : List (Nat × Int)) (regs : List (RegName × Int)) (pc : Int) : State := stepRequest (start words regs pc)

/-- The state a result holds, if it holds one, looked at through `f`. -/
def seen {α : Type} (r : Result) (f : State → α) : Option α :=
  match r with
  | .next t => some (f t)
  | .fault _ => none
  | .refused _ => none

/-! ## WellFormed: each check refuses an ill-formed term (R91 (a)) -/

theorem test_wellFormed_refuses_fadd_r2 : (Instr.fadd 2 (dir 20)).wellFormed = false := by decide
theorem test_wellFormed_refuses_fsub_r3 : (Instr.fsub 3 (dir 20)).wellFormed = false := by decide
theorem test_wellFormed_refuses_vadd_r2 : (Instr.vadd 2 (dir 21)).wellFormed = false := by decide
theorem test_wellFormed_refuses_vsub_r3 : (Instr.vsub 3 (dir 21)).wellFormed = false := by decide
theorem test_wellFormed_refuses_ldfr_r3 : (Instr.ldfr 3 (dir 20)).wellFormed = false := by decide
theorem test_wellFormed_refuses_stfr_r2 : (Instr.stfr 2 (dir 20)).wellFormed = false := by decide
theorem test_wellFormed_accepts_fr1_and_every_cnvrt :
    (Instr.stfr 1 (dir 20)).wellFormed = true ∧ (Instr.cnvrt 3 (dir 20)).wellFormed = true := by decide

/-! ## Decoding: every constructor by a word of V-ENC (part 2), written field by field: opcode, R, IX, I, address -/

theorem test_decode_hlt : decodeWord 0b000000_11_11_1_11111 = .instr (.hlt 3 ⟨3, true, 31⟩) := by decide
theorem test_decode_ldr : decodeWord 0b000001_11_00_1_01100 = .instr (.ldr 3 ⟨0, true, 12⟩) := by decide
theorem test_decode_str : decodeWord 0b000010_11_11_0_11111 = .instr (.str 3 ⟨3, false, 31⟩) := by decide
theorem test_decode_fadd : decodeWord 0b100010_00_00_0_10101 = .instr (.fadd 0 (dir 21)) := by decide
theorem test_decode_fsub : decodeWord 0b100100_01_00_0_10110 = .instr (.fsub 1 (dir 22)) := by decide
theorem test_decode_vadd : decodeWord 0b100101_01_00_0_10101 = .instr (.vadd 1 (dir 21)) := by decide
theorem test_decode_vsub : decodeWord 0b100110_00_00_0_10101 = .instr (.vsub 0 (dir 21)) := by decide
theorem test_decode_cnvrt : decodeWord 0b100111_01_10_0_10111 = .instr (.cnvrt 1 ⟨2, false, 23⟩) := by decide
theorem test_decode_ldfr : decodeWord 0b101000_01_00_0_10100 = .instr (.ldfr 1 (dir 20)) := by decide
theorem test_decode_stfr : decodeWord 0b101001_00_00_0_10111 = .instr (.stfr 0 (dir 23)) := by decide
theorem test_decode_reserved_operand_still_decodes : decodeWord 0x8A14 = .instr (.fadd 2 (dir 20)) := by decide
theorem test_decode_unknown_3_33 :
    decodeWord 0x0C15 = .unknownOpcode 3 ∧ decodeWord 0x87FF = .unknownOpcode 33 := by decide
theorem test_decode_unknown_35_42_63 :
    decodeWord 0x8D07 = .unknownOpcode 35 ∧ decodeWord 0xA800 = .unknownOpcode 42 ∧
      decodeWord 0xFFFF = .unknownOpcode 63 := by decide
/-- V-ENC-5, V-ENC-11. -/
theorem test_encode_words : encode (.str 2 ⟨2, true, 0⟩) = 0x0AA0 ∧ encode (.cnvrt 1 ⟨2, false, 23⟩) = 0x9D97 := by decide
/-- V-ENC-3 as bytes: the less significant byte lies lower (log 1). -/
theorem test_decode_bytes : decodeBytes [0x0A, 0x05] = some (.instr (.ldr 1 (dir 10))) := by decide
theorem test_decodeTableWord :
    decodeTableWord 16 0x050A = some (.ldr 1 (dir 10)) ∧ decodeTableWord 16 0x0C15 = none := by decide
/-- The word placed is the word the first step after reset fetches. -/
theorem test_withFetchWord_runs :
    ((stepRequest (State.reset.withFetchWord 16 0x9D97)).ir, (stepRequest (State.reset.withFetchWord 16 0x9D97)).mar) =
      (0x9D97, 0) := by decide

/-! ## One step of each instruction -/

/-- S6. -/
theorem test_hlt :
    ((one [] [] 100).pc, (one [] [] 100).mar, (one [] [] 100).ir, (one [] [] 100).halted) = (101, 100, 0, true) := by decide
/-- V-HLT-3. -/
theorem test_hlt_effective_address_event :
    (one [(50, 0x03FF)] [(.ixr 2, 0xFFFF)] 50).stream = [.outOfRangeRead 65566] := by decide
/-- V-EA-2. -/
theorem test_ldr_indexed : (one [(50, 0x0645), (105, 0xBEEF)] [(.ixr 0, 100)] 50).gpr[2] = 0xBEEF := by decide
/-- V-EA-6: the sum 65566 does not wrap, and the failed indirect read yields the address 0. -/
theorem test_ldr_indirect_out_of_range :
    ((one [(50, 0x057F), (0, 0x7777)] [(.ixr 0, 0xFFFF)] 50).gpr[1],
      (one [(50, 0x057F), (0, 0x7777)] [(.ixr 0, 0xFFFF)] 50).stream) = (0x7777, [.outOfRangeRead 65566]) := by decide
/-- V-EA-4. -/
theorem test_str_indexed_then_indirect :
    ((one [(50, 0x0AA0), (300, 400)] [(.ixr 1, 300), (.gpr 2, 0xBEEF)] 50).mem.read 400,
      (one [(50, 0x0AA0), (300, 400)] [(.ixr 1, 300), (.gpr 2, 0xBEEF)] 50).mem.read 300) = (0xBEEF, 400) := by decide
/-- V-EA-10: a store at 2048 is dropped. -/
theorem test_str_out_of_range :
    ((one [(50, 0x0AC8)] [(.ixr 2, 2040), (.gpr 2, 0xABCD)] 50).mem == (start [(50, 0x0AC8)] [] 50).mem,
      (one [(50, 0x0AC8)] [(.ixr 2, 2040), (.gpr 2, 0xABCD)] 50).stream) = (true, [.outOfRangeWrite 2048]) := by decide
/-- P3, cycle 2: 3 + 2. -/
theorem test_fadd : (one [(7, 0x8815), (21, 0x0280)] [(.fr 0, 0x02C0)] 7).fr[0] = 0x03A0 := by decide
/-- P3, cycle 5: 5 - 10, the register first. -/
theorem test_fsub : (one [(10, 0x9116), (22, 0x04A0)] [(.fr 1, 0x03A0)] 10).fr[1] = 0x83A0 := by decide
/-- P3, cycle 1. -/
theorem test_cnvrt_integer_to_float : (one [(6, 0x9C14), (20, 3)] [] 6).fr[0] = 0x02C0 := by decide
/-- P3, cycle 8: with IX 3 the result goes to GPR[3]. -/
theorem test_cnvrt_float_to_integer : (one [(13, 0x9DD8), (24, 0x83A0)] [] 13).gpr[3] = 0xFFFB := by decide
/-- P3, cycle 4. -/
theorem test_ldfr : (one [(9, 0xA117), (23, 0x03A0)] [] 9).fr[1] = 0x03A0 := by decide
/-- P3, cycle 6. -/
theorem test_stfr : (one [(11, 0xA518)] [(.fr 1, 0x83A0)] 11).mem.read 24 = 0x83A0 := by decide
/-- V-VEC-10: the loop is sequential. -/
theorem test_vadd_running_sum :
    [49, 50, 51, 52].map (one [(10, 0x9515), (21, 50), (22, 49), (49, 1)] [(.fr 1, 3)] 10).mem.read = [1, 1, 1, 1] := by
  decide
/-- V-VEC-14: the pointers are read once. -/
theorem test_vadd_over_its_pointers :
    [21, 22].map (one [(10, 0x9515), (21, 21), (22, 100), (100, 5), (101, 6)] [(.fr 1, 2)] 10).mem.read = [26, 106] := by
  decide
/-- V-VEC-12. -/
theorem test_vsub_one_below :
    [49, 50, 51, 52].map (one [(10, 0x9915), (21, 50), (22, 49), (49, 1), (50, 2), (51, 3), (52, 4)] [(.fr 1, 3)] 10).mem.read =
      [1, 1, 2, 2] := by decide
/-- V-VEC-13 with VSUB. -/
theorem test_vsub_itself :
    [100, 101].map (one [(10, 0x9915), (21, 100), (22, 100), (100, 3), (101, 0xFFFF)] [(.fr 1, 2)] 10).mem.read = [0, 0] := by
  decide
/-- V-UNK-3: the effective-address step comes first. -/
theorem test_unknown_opcode :
    ((one [(50, 0xFFFF)] [(.ixr 2, 5000)] 50).stream, (one [(50, 0xFFFF)] [(.ixr 2, 5000)] 50).halted) =
      ([.outOfRangeRead 5031, .unknownOpcode 63], true) := by decide
/-- V-RSV-2. -/
theorem test_reserved_operand :
    ((one [(50, 0xA760)] [(.ixr 0, 3000)] 50).stream, (one [(50, 0xA760)] [(.ixr 0, 3000)] 50).halted) =
      ([.outOfRangeRead 3000, .reservedOperand 0xA760], true) := by decide
/-- V-HLT-5: PC wraps. -/
theorem test_fetch_at_4095 :
    ((one [] [] 4095).pc, (one [] [] 4095).stream, (one [] [] 4095).halted) = (0, [.outOfRangeRead 4095], true) := by decide

/-! ## The floating-point unit (tables of part 2) -/

/-- F-I2F: 257 and 259 are ties, both upward; -32768 is exact. -/
theorem test_intToFp : [0x0101, 0x0103, 0x8000].map intToFp = [0x0981, 0x0982, 0x9080] := by decide
/-- F-F2I: 0.5 to 1, -0.5 to 0, -1.5 to -1, the largest value saturates. -/
theorem test_fpToInt : [0x0080, 0x8080, 0x81C0, 0x3FFF].map fpToInt = [1, 0, 0xFFFF, 0x7FFF] := by decide
/-- F-AS: mantissa 256 is cut to 255, overflow saturates, a sum at the least exponent. -/
theorem test_fpAdd : [fpAdd 0x0FFF 0x0FFF, fpAdd 0x3FFF 0x3FFF, fpAdd 0x4001 0x4001] = [0x10FF, 0x3FFF, 0x4101] := by decide
/-- F-AS. -/
theorem test_fpSub : [fpSub 0x0980 0x0180, fpSub 0x4181 0xC180, fpSub 0x8000 0x8000] = [0x08FF, 0x4281, 0x0000] := by decide

/-! ## The host and the assembler -/

/-- V-HOST-2, V-HOST-3: a load does not clear, and drops what is out of range. -/
theorem test_load :
    ((load [(6, 0x0514), (2048, 1)] (start [(30, 0x5555)] [] 0)).mem.read 30,
      (load [(6, 0x0514), (2048, 1)] (start [(30, 0x5555)] [] 0)).stream) = (0x5555, [.outOfRangeWrite 2048]) := by decide
/-- V-HOST-4, V-HOST-5. -/
theorem test_register_write_masks :
    ((State.reset.writeReg .pc 0x1FFF).pc, (State.reset.writeReg (.gpr 0) 0x12345).gpr[0]) = (0x0FFF, 0x2345) := by decide

/-- What a source assembles to: the load file's words, or nothing. -/
def words (source : Text) : List (Nat × Word) :=
  match assemble source with
  | .ok o => o.words
  | .error _ => []

/-- S3. -/
theorem test_assemble_example :
    words "LOC 6\nLDR 1,0,10\nHLT".toList = [(6, 0x050A), (7, 0x0000)] := by decide
/-- V-ASM-9: labels are case-insensitive. -/
theorem test_assemble_label : words "LOC 5\nstart: HLT\nDATA START".toList = [(5, 0), (6, 5)] := by decide
/-- V-ASM-8: absent operands are zero and direct. -/
theorem test_assemble_absent_operands : words "LOC 6\nLDR 3".toList = [(6, 0x0700)] := by decide
/-- S3: the line of the load file. -/
theorem test_load_file_line : loadLine (6, 0x050A) = "000006 002412".toList := by decide

/-! ## Witnesses: the hypotheses of the obligations can be met -/

/-- LDR 1,0,20 at 6, 1234 at 20. -/
def demo : State := start [(6, 0x0514), (20, 0x1234)] [] 6

/-- VADD 1,0,21 at 10: three elements, the first vector at 100, the second at 200. -/
def vecDemo : State := start [(10, 0x9515), (21, 100), (22, 200)] [(.fr 1, 3)] 10

/-- HALTED, PC 1. -/
def stopped : State := one [] [] 0

theorem witness_ReadAfterWriteGivesMaskedValue : (0 : Nat) < 2048 ∧ (2047 : Nat) < 2048 ∧ (2046 : Nat) ≠ 2047 := by decide
theorem witness_OutOfRangeAccessIsFailSoft : (2047 : Nat) < 2048 ∧ 2048 ≤ (2048 : Nat) := by decide
theorem witness_RegisterWriteMasksAndReadsBack : RegName.gpr 1 ≠ RegName.fr 1 ∧ RegName.pc ≠ .mar := by decide
theorem witness_OpcodeAloneSelectsTheRow :
    [0x03FF, 0x0400, 0x0BFF, 0x8800, 0x93FF, 0x9400, 0x9BFF, 0x9C00, 0xA3FF, 0xA400].map
      (fun w : Word => w.toNat / 1024) = [0, 1, 2, 34, 36, 37, 38, 39, 40, 41] := by decide
theorem witness_EncodeInvertsDecode : decodeWord 0xA7FF = .instr (.stfr 3 ⟨3, true, 31⟩) := by decide
theorem witness_EveryCycleFetchesAndAdvancesPc : demo.halted = false := by decide
theorem witness_StepRunsTheDecodedInstruction :
    demo.halted = false ∧ demo.pc.toNat < 2048 ∧
      decodeBytes [demo.mem.byteAt (2 * demo.pc.toNat), demo.mem.byteAt (2 * demo.pc.toNat + 1)] =
        some (.instr (.ldr 1 (dir 20))) := by decide
/-- At the last address of memory. -/
theorem witness_StepRunsTheDecodedInstruction_last :
    (start [(2047, 0x0501)] [] 2047).pc.toNat = 2047 ∧
      decodeBytes [(start [(2047, 0x0501)] [] 2047).mem.byteAt 4094, (start [(2047, 0x0501)] [] 2047).mem.byteAt 4095] =
        some (.instr (.ldr 1 (dir 1))) := by decide
theorem witness_EffectiveAddressIsIndexedThenIndirect :
    (MemOperand.mk 0 false 0).indirect = false ∧ (MemOperand.mk 3 true 31).indirect = true := by decide
theorem witness_IndirectReadBeyondMemoryGivesAddressZero :
    (MemOperand.mk 1 true 0).indirect = true ∧ 2048 ≤ (start [] [(.ixr 0, 2048)] 0).indexed ⟨1, true, 0⟩ ∧
      (start [] [(.ixr 0, 2048)] 0).indexed ⟨1, true, 0⟩ ≤ 2048 := by decide
theorem witness_FetchBeyondMemoryHalts :
    (start [] [] 2048).halted = false ∧ 2048 ≤ (start [] [] 2048).pc.toNat ∧ (start [] [] 4095).pc.toNat = 4095 := by decide
theorem witness_TheFiftyFourOtherOpcodesHalt :
    (start [(50, 0x0C15)] [] 50).halted = false ∧
      decodeWord ((start [(50, 0x0C15)] [] 50).mem.read (start [(50, 0x0C15)] [] 50).pc.toNat) = .unknownOpcode 3 := by decide
theorem witness_UnknownOpcodeLeavesEverythingElse :
    (start [(2047, 0xFFFF)] [] 2047).halted = false ∧ (start [(2047, 0xFFFF)] [] 2047).pc.toNat = 2047 ∧
      decodeWord ((start [(2047, 0xFFFF)] [] 2047).mem.word 2047) = .unknownOpcode 63 := by decide
/-- An `ea` of 2047 and one of 2048, and the bytes beside the stored word. -/
theorem witness_StrStoresTheRegisterAtEa :
    (start [] [(.ixr 2, 2040)] 0).ea ⟨3, false, 7⟩ = 2047 ∧ (start [] [(.ixr 2, 2040)] 0).ea ⟨3, false, 8⟩ = 2048 ∧
      (4093 : Nat) ≠ 2 * 2047 ∧ (4093 : Nat) ≠ 2 * 2047 + 1 := by decide
theorem witness_LdfrLoadsTheWordAtEa : (1 : Fin 4).val < 2 := by decide
/-- As for STR, with FR1. -/
theorem witness_StfrStoresTheRegisterAtEa :
    (1 : Fin 4).val < 2 ∧ (start [] [(.ixr 2, 2040)] 0).ea ⟨3, false, 7⟩ < 2048 ∧
      2048 ≤ (start [] [(.ixr 2, 2040)] 0).ea ⟨3, false, 8⟩ := by decide
theorem witness_FaddAddsTheWordAtEa : (0 : Fin 4).val < 2 ∧ (1 : Fin 4).val < 2 := by decide
theorem witness_FsubSubtractsTheWordAtEa : (0 : Fin 4).val < 2 ∧ (1 : Fin 4).val < 2 := by decide
theorem witness_CnvrtConvertsByDirection : 2 ≤ (2 : Fin 4).val ∧ 2 ≤ (3 : Fin 4).val := by decide
theorem witness_ReservedOperandHalts :
    2 ≤ (2 : Fin 4).val ∧ 2 ≤ (3 : Fin 4).val ∧
      Instr.vsub 3 (dir 0) ∈ [Instr.fadd 3 (dir 0), .fsub 3 (dir 0), .ldfr 3 (dir 0), .stfr 3 (dir 0), .vadd 3 (dir 0),
        .vsub 3 (dir 0)] := by decide
theorem witness_VectorOfLengthZeroDoesNothing : (1 : Fin 4).val < 2 ∧ demo.fr[1] = 0 := by decide
theorem witness_VectorRunsItsElementsInOrder : (1 : Fin 4).val < 2 ∧ vecDemo.fr[1] ≠ 0 := by decide
/-- Vectors apart, and the boundaries: the second ends where the first begins, and the two are one. -/
theorem witness_VectorIsElementwiseUnlessItChasesItself :
    vecDemo.fr[1].toNat = 3 ∧ (vecDemo.mem.read (vecDemo.ea (dir 21))).toNat = 100 ∧
      (vecDemo.mem.read (vecDemo.ea (dir 21) + 1)).toNat = 200 ∧ ¬(200 < 100 ∧ 100 < 200 + 3) ∧
      ¬(97 < 100 ∧ 100 < 97 + 3) ∧ ¬(100 < 100 ∧ 100 < 100 + 3) ∧ (2 < 3 ∧ 100 + 2 < 2048) := by decide
/-- Three elements that end at the last word of memory. -/
theorem witness_VectorAddOneBelowIsRunningSum :
    ((start [(21, 2045), (22, 2044)] [(.fr 1, 3)] 0).mem.read 22).toNat + 1 =
        ((start [(21, 2045), (22, 2044)] [(.fr 1, 3)] 0).mem.read 21).toNat ∧
      ((start [(21, 2045), (22, 2044)] [(.fr 1, 3)] 0).mem.read 21).toNat +
        (start [(21, 2045), (22, 2044)] [(.fr 1, 3)] 0).fr[1].toNat ≤ 2048 := by decide
theorem witness_VectorInMemoryRaisesNothing :
    vecDemo.ea (dir 21) + 1 < 2048 ∧ (vecDemo.mem.read (vecDemo.ea (dir 21))).toNat + vecDemo.fr[1].toNat ≤ 2048 ∧
      (vecDemo.mem.read (vecDemo.ea (dir 21) + 1)).toNat + vecDemo.fr[1].toNat ≤ 2048 := by decide
theorem witness_VectorInMemoryRaisesNothing_next : ∃ t, exec (.vadd 1 (dir 21)) vecDemo = .next t := ⟨_, rfl⟩
theorem witness_LoadAndArithmeticFrame :
    (∃ t, exec (.ldr 1 (dir 20)) demo = .next t) ∧ ¬(Instr.fadd 1 (dir 20) = .ldr 1 (dir 20) ∧ (1 : Fin 4) = 1) ∧
      Instr.ldr 1 (dir 20) ≠ .hlt 1 (dir 20) ∧ (Instr.ldr 1 (dir 20)).wellFormed = true :=
  ⟨⟨_, rfl⟩, by decide, by decide, by decide⟩
theorem witness_StoreFrame :
    (∃ t, exec (.stfr 1 (dir 20)) demo = .next t) ∧ (Instr.stfr 1 (dir 20)).wellFormed = true ∧
      (Instr.stfr 2 (dir 20)).wellFormed = false ∧ 2048 ≤ (start [] [(.ixr 2, 2040)] 0).ea ⟨3, false, 8⟩ :=
  ⟨⟨_, rfl⟩, by decide, by decide, by decide⟩
/-- The bytes just outside the three words at 100, and a reserved operand. -/
theorem witness_VectorFrame :
    (∃ t, exec (.vadd 1 (dir 21)) vecDemo = .next t) ∧ ¬(100 ≤ 199 / 2 ∧ 199 / 2 < 100 + 3) ∧
      ¬(100 ≤ 206 / 2 ∧ 206 / 2 < 100 + 3) ∧ 2 ≤ (2 : Fin 4).val ∧
      ∃ t, exec (.vadd 2 (dir 21)) vecDemo = .next t :=
  ⟨⟨_, rfl⟩, by decide, by decide, by decide, ⟨_, rfl⟩⟩
/-- The value 1, at the lower end of E = 1, and the least value 2^-72, at the lower end of E = -71. -/
theorem witness_EncoderIsItsRationalClosedForm :
    ((2 : ℚ) ^ ((1 : Int) - 1) ≤ |(((2 : Int) ^ 72 : Int) : ℚ) / 2 ^ 72| ∧
      |(((2 : Int) ^ 72 : Int) : ℚ) / 2 ^ 72| < (2 : ℚ) ^ (1 : Int)) ∧
    ((2 : ℚ) ^ ((-71 : Int) - 1) ≤ |((1 : Int) : ℚ) / 2 ^ 72| ∧ |((1 : Int) : ℚ) / 2 ^ 72| < (2 : ℚ) ^ (-71 : Int)) := by
  refine ⟨⟨?_, ?_⟩, ⟨?_, ?_⟩⟩ <;> norm_num [abs_of_pos, zpow_neg]
/-- Both ends of the exponents, and both clauses at their common boundary 511/512 of 2^9. -/
theorem witness_EncoderErrsByAtMostHalfAUnit :
    (2 ^ (9 - 1) ≤ (510 : Int).natAbs ∧ (510 : Int).natAbs < 2 ^ 9 ∧ 512 * (510 : Int).natAbs < 511 * 2 ^ 9) ∧
    (2 ^ (9 - 1) ≤ (511 : Int).natAbs ∧ (511 : Int).natAbs < 2 ^ 9 ∧ 511 * 2 ^ 9 ≤ 512 * (511 : Int).natAbs) ∧
    (2 ^ (135 - 1) ≤ ((2 : Int) ^ 134).natAbs ∧ ((2 : Int) ^ 134).natAbs < 2 ^ 135) := by decide
theorem witness_EncoderSaturatesAndAvoidsReservedWords :
    (2 : Int) ^ 135 ≤ 2 ^ 135 ∧ -(2 : Int) ^ 135 ≤ -2 ^ 135 := by decide
theorem witness_FloatAddAndSubtractLaws : (0x7F00 : Word).toNat % 256 = 0 := by decide
theorem witness_EveryStepKeepsMemoryCanonical : demo.Inv ∧ ∃ t, step demo = .next t := ⟨by decide, _, rfl⟩
theorem witness_HostOperationsKeepMemoryCanonical : demo.Inv ∧ vecDemo.Inv := by decide
theorem witness_CycleLeavesStagingRegistersInStep :
    (∃ t, step demo = .next t) ∧ demo.halted = false ∧ stopped.halted = true ∧ stopped.Settled :=
  ⟨⟨_, rfl⟩, by decide, by decide, by decide⟩
theorem witness_HaltedIsTerminal : stopped.halted = true ∧ HostOp.memoryReset ≠ .powerOn := by decide
theorem witness_EveryRunHalts : (start [] [] 2047).pc.toNat ≤ 2047 ∧ 2048 ≤ (start [] [] 2048).pc.toNat := by decide
theorem witness_CancelledRunGoesOnWhereItStopped : stopped.halted = true ∧ demo.halted = false := by decide
theorem witness_NoStepWritesAnIndexRegister : ∃ t, step demo = .next t := ⟨_, rfl⟩
theorem witness_OnlyHaltingWordsHalt : demo.halted = false ∧ ∃ t, step demo = .next t := ⟨by decide, _, rfl⟩
theorem witness_DiagnosticsAreAppendOnly : (∃ t, step demo = .next t) ∧ HostOp.inspect ≠ .powerOn := ⟨⟨_, rfl⟩, by decide⟩
theorem witness_StepNeverReadsTheDiagnostics : ∃ t, step demo = .next t := ⟨_, rfl⟩
theorem witness_StagingRegistersAreNoInput : demo.halted = false := by decide
/-- STR and STFR at 2047, the last address of memory. -/
theorem witness_StoredWordIsTheNextWordFetched :
    (∃ t, exec (.str 1 ⟨3, false, 7⟩) (start [] [(.ixr 2, 2040)] 0) = .next t) ∧
      (∃ t, exec (.stfr 1 ⟨3, false, 7⟩) (start [] [(.ixr 2, 2040)] 0) = .next t) ∧ (1 : Fin 4).val < 2 ∧
      (2047 : AddrReg).toNat = (start [] [(.ixr 2, 2040)] 0).ea ⟨3, false, 7⟩ ∧ (2047 : AddrReg).toNat < 2048 :=
  ⟨⟨_, rfl⟩, ⟨_, rfl⟩, by decide, by decide, by decide⟩
/-- VADD and VSUB: the last of the three elements at 100. -/
theorem witness_StoredWordIsTheNextWordFetched_vector :
    (∃ t, exec (.vadd 1 (dir 21)) vecDemo = .next t) ∧ (∃ t, exec (.vsub 1 (dir 21)) vecDemo = .next t) ∧
      2 < vecDemo.fr[1].toNat ∧ (102 : AddrReg).toNat = (vecDemo.mem.read (vecDemo.ea (dir 21))).toNat + 2 ∧
      ¬((vecDemo.mem.read (vecDemo.ea (dir 21) + 1)).toNat < (vecDemo.mem.read (vecDemo.ea (dir 21))).toNat ∧
        (vecDemo.mem.read (vecDemo.ea (dir 21))).toNat <
          (vecDemo.mem.read (vecDemo.ea (dir 21) + 1)).toNat + vecDemo.fr[1].toNat) :=
  ⟨⟨_, rfl⟩, ⟨_, rfl⟩, by decide, by decide, by decide⟩
/-- One pair in range, one beyond it, one address in neither. -/
theorem witness_LoadWritesExactlyItsMapping :
    (([(2047, 1), (2048, 2)] : List (Nat × Int)).map (·.1)).Nodup ∧
      ((2047, 1) : Nat × Int) ∈ ([(2047, 1), (2048, 2)] : List (Nat × Int)) ∧ (2047 : Nat) < 2048 ∧
      (0 : Nat) ∉ ([(2047, 1), (2048, 2)] : List (Nat × Int)).map (·.1) := by decide
theorem witness_AssembledLineIsTheEncodedInstruction :
    Op.ldr ≠ .hlt ∧ operandValue [] ['3'] = (3 : Fin 4).val ∧ operandValue [] ['0'] = (0 : Fin 4).val ∧
      operandValue [(['A'], 31)] ['a'] = (31 : Fin 32).val ∧
      ((MemOperand.mk 0 true 31).indirect = true ↔ (['I'] : Text) = ['1'] ∨ (['I'] : Text) = ['I']) ∧
      ((MemOperand.mk 0 false 31).indirect = true ↔ (['0'] : Text) = ['1'] ∨ (['0'] : Text) = ['I']) := by decide
theorem witness_SixOctalDigitsDenoteTheNumber : (0 : Nat) < 8 ^ 6 ∧ 262143 < 8 ^ 6 := by decide

end Sys2Proof.Tests
end

