-- ==== Sys2Proof/Proofs/Registers.lean ====
section
/-! PROOFS. Registers by name (spec/10_state.md R21, R38): what a read returns after a write to the same and to another
register, and after an update of memory. -/

namespace Sys2Proof.Machine

/-! ## Bounds -/

/-- The mask of R9 in arithmetic: the residue of any integer modulo `2 ^ n`. -/
theorem toNat_mask (n : Nat) (v : Int) : ((BitVec.ofInt n v).toNat : Int) = v % 2 ^ n := by
  rw [BitVec.toNat_ofInt, Int.toNat_of_nonneg (Int.emod_nonneg v (by positivity))]
  norm_cast

theorem State.readReg_lt (s : State) (r : RegName) : s.readReg r < 2 ^ r.width := by
  cases r <;> exact BitVec.isLt _

/-! ## A read after a write, bank by bank -/

section Banks
variable (s : State) (w : Word) {r : RegName}

@[simp] theorem State.readReg_setGpr_same (i : Fin 4) : (s.setGpr i w).readReg (.gpr i) = w.toNat := by
  simp [State.readReg]

@[simp] theorem State.readReg_setIxr_same (i : Fin 3) : (s.setIxr i w).readReg (.ixr i) = w.toNat := by
  simp [State.readReg]

@[simp] theorem State.readReg_setFr_same (i : Fin 2) : (s.setFr i w).readReg (.fr i) = w.toNat := by
  simp [State.readReg]

theorem State.readReg_setGpr_ne {i : Fin 4} (h : r ≠ .gpr i) : (s.setGpr i w).readReg r = s.readReg r := by
  cases r with
  | gpr j =>
    have hij : i.val ≠ j.val := fun e => h (congrArg RegName.gpr (Fin.ext e.symm))
    simp [State.readReg, Vector.getElem_set_ne, hij]
  | _ => rfl

theorem State.readReg_setIxr_ne {i : Fin 3} (h : r ≠ .ixr i) : (s.setIxr i w).readReg r = s.readReg r := by
  cases r with
  | ixr j =>
    have hij : i.val ≠ j.val := fun e => h (congrArg RegName.ixr (Fin.ext e.symm))
    simp [State.readReg, Vector.getElem_set_ne, hij]
  | _ => rfl

theorem State.readReg_setFr_ne {i : Fin 2} (h : r ≠ .fr i) : (s.setFr i w).readReg r = s.readReg r := by
  cases r with
  | fr j =>
    have hij : i.val ≠ j.val := fun e => h (congrArg RegName.fr (Fin.ext e.symm))
    simp [State.readReg, Vector.getElem_set_ne, hij]
  | _ => rfl

end Banks

/-! ## A read after a write, by register name -/

theorem State.readReg_writeReg_same (s : State) (r : RegName) (v : Int) :
    ((s.writeReg r v).readReg r : Int) = v % 2 ^ r.width := by
  cases r with
  | pc | mar => exact toNat_mask 12 v
  | mbr | ir => exact toNat_mask 16 v
  | gpr i => rw [State.writeReg, State.readReg_setGpr_same]; exact toNat_mask 16 v
  | ixr i => rw [State.writeReg, State.readReg_setIxr_same]; exact toNat_mask 16 v
  | fr i => rw [State.writeReg, State.readReg_setFr_same]; exact toNat_mask 16 v

/-- No register overlaps another (R21). -/
theorem State.readReg_writeReg_ne (s : State) {r r' : RegName} (h : r' ≠ r) (v : Int) :
    (s.writeReg r v).readReg r' = s.readReg r' := by
  cases r with
  | pc => cases r' with
    | pc => exact absurd rfl h
    | _ => rfl
  | mar => cases r' with
    | mar => exact absurd rfl h
    | _ => rfl
  | mbr => cases r' with
    | mbr => exact absurd rfl h
    | _ => rfl
  | ir => cases r' with
    | ir => exact absurd rfl h
    | _ => rfl
  | gpr i => exact s.readReg_setGpr_ne _ h
  | ixr i => exact s.readReg_setIxr_ne _ h
  | fr i => exact s.readReg_setFr_ne _ h

/-- A register read sees neither memory nor the stream. -/
@[simp] theorem State.readReg_with_mem_diags (s : State) (m : Memory) (d : List Diag) (r : RegName) :
    { s with mem := m, diags := d }.readReg r = s.readReg r := by
  cases r <;> rfl

end Sys2Proof.Machine

open Sys2Proof Sys2Proof.Machine

/-- Settles O3, from the read after a write to the same and to another register, and the widths of registers and words. -/
theorem registerWriteMasksAndReadsBack : Obligations.RegisterWriteMasksAndReadsBack := fun s r v =>
  ⟨s.readReg_writeReg_same r v, fun _ h => s.readReg_writeReg_ne h v, s.readReg_lt, fun _ => BitVec.isLt _⟩

/-- Settles O5: the empty list of bytes reads as 0 everywhere, and a register read does not see memory. -/
theorem memoryResetZeroesMemoryOnly : Obligations.MemoryResetZeroesMemoryOnly := fun s =>
  ⟨Memory.read_nil, rfl, rfl, s.readReg_with_mem_diags [] s.diags⟩

end

