-- ==== Sys2Proof/Proofs/MemoryAccess.lean ====
section
/-! PROOFS. The two memory primitives (spec/20_memory.md R52 to R54): the word a read gives, and what a write in range
changes. -/

namespace Sys2Proof.Machine

@[simp] theorem memRead_fst (a : Nat) (s : State) : (memRead a s).1 = s.mem.read a := rfl

@[simp] theorem hostWrite_mem (a : Nat) (v : Int) (s : State) : (hostWrite a v s).mem = s.mem.write a (mask16 v) := rfl

/-- In range a write has no event (R53), so memory alone changes. -/
theorem memWrite_in_range {a : Nat} (ha : a < 2048) (w : Word) (s : State) :
    memWrite a w s = { s with mem := s.mem.write a w } := by
  rw [memWrite_eq, writeEvents, if_pos ha, List.nil_append]

end Sys2Proof.Machine

open Sys2Proof Sys2Proof.Machine

/-- Settles O1, from the reads of a written memory at the same and at another address, and the write in range, which
has no event. -/
theorem readAfterWriteGivesMaskedValue : Obligations.ReadAfterWriteGivesMaskedValue := by
  intro s a v ha
  refine ⟨?same, ?other, ?frame⟩
  case same => rw [memRead_fst, hostWrite_mem, Memory.read_write_same _ ha]
  case other =>
    intro b hb
    rw [memRead_fst, memRead_fst, hostWrite_mem, Memory.read_write_ne _ hb.symm]
  case frame => exact memWrite_in_range ha (mask16 v) s

end

