-- ==== Sys2Proof/Proofs/UnknownOpcodes.lean ====
section
/-! PROOFS. The opcodes outside the table (spec/30_encoding.md R90): which words decode to one, and what the cycle of
such a word does (spec/60_exceptions.md R253). -/

namespace Sys2Proof

/-- The 54 opcodes that no row of the table (R86) bears. -/
theorem Op.ofCode_eq_none_iff (c : Fin 64) :
    Op.ofCode c = none ↔ (3 ≤ c.val ∧ c.val ≤ 33) ∨ c.val = 35 ∨ (42 ≤ c.val ∧ c.val ≤ 63) := by
  revert c
  decide

@[simp] theorem opcodeField_val (w : Word) : (opcodeField w).val = w.toNat / 1024 := rfl

/-- A word is unknown exactly when its opcode selects no row; the number it is reported by is its opcode. -/
theorem decodeWord_eq_unknownOpcode_iff {w : Word} {op : Fin 64} :
    decodeWord w = .unknownOpcode op ↔ Op.ofCode (opcodeField w) = none ∧ opcodeField w = op := by
  unfold decodeWord
  cases Op.ofCode (opcodeField w) <;> simp

theorem exists_decodeWord_eq_unknownOpcode_iff (w : Word) :
    (∃ op, decodeWord w = .unknownOpcode op) ↔ Op.ofCode (opcodeField w) = none := by
  simp [decodeWord_eq_unknownOpcode_iff]

end Sys2Proof

namespace Sys2Proof.Machine

@[simp] theorem State.length_stream (s : State) : s.stream.length = s.diags.length := List.length_reverse

/-- The cycle of an unknown opcode after its fetch step: the event of the effective-address step, then its own, and
HALTED. -/
theorem execUnknown_eq (op : Fin 64) (s : State) :
    execUnknown op s = .next { s with halted := true,
                                      diags := .unknownOpcode op :: (s.eaEvents (operandField s.ir) ++ s.diags) } := by
  simp only [execUnknown, effectiveAddress_eq, raiseUnknownOpcode_eq]

theorem step_of_unknownOpcode {s : State} {op : Fin 64} (hrun : s.halted = false)
    (hdec : decodeWord (s.mem.read s.pc.toNat) = .unknownOpcode op) : step s = execUnknown op (fetch s) := by
  simp [step, hrun, hdec]

/-- The fetch step appends to the stream. -/
theorem length_diags_le_fetch (s : State) : s.diags.length ≤ (fetch s).diags.length := by
  simp [fetch_eq]

end Sys2Proof.Machine

open Sys2Proof Sys2Proof.Machine

/-- Settles O15, from the opcodes that select no row, and the whole state after the execution of an unknown opcode. -/
theorem theFiftyFourOtherOpcodesHalt : Obligations.TheFiftyFourOtherOpcodesHalt := by
  refine ⟨fun w => ?unknown, fun s op hrun hdec => ?halts⟩
  case unknown => rw [exists_decodeWord_eq_unknownOpcode_iff, Op.ofCode_eq_none_iff, opcodeField_val]
  case halts =>
    refine ⟨_, (step_of_unknownOpcode hrun hdec).trans (execUnknown_eq op (fetch s)), rfl, ?_⟩
    have hfetch := length_diags_le_fetch s
    simp only [State.length_stream, List.length_cons, List.length_append]
    omega

end

