-- ==== Sys2Proof/Proofs/EffectiveAddress.lean ====
section
/-! PROOFS. The effective-address step (spec/40_cycle_and_effective_address.md R126): what indexing adds, the address
without and with indirection, the bounds, and the state after it. -/

namespace Sys2Proof.Machine

/-! ## Indexing -/

@[simp] theorem State.indexValue_zero (s : State) : s.indexValue 0 = 0 := rfl

@[simp] theorem State.indexValue_succ (s : State) (i : Fin 3) : s.indexValue i.succ = s.ixr[i].toNat := by
  simp [State.indexValue]

/-- The bound of an indexed address: the largest address field and the largest index register. -/
theorem State.indexed_le (s : State) (m : MemOperand) : s.indexed m ≤ 65566 := by
  have haddr : m.address.val < 32 := m.address.isLt
  have hindex : s.indexValue m.ix ≤ 65535 := s.indexValue_le m.ix
  unfold State.indexed
  omega

/-! ## Indirection -/

theorem State.ea_of_direct (s : State) {m : MemOperand} (h : m.indirect = false) : s.ea m = s.indexed m := by
  simp [State.ea, h]

theorem State.ea_of_indirect (s : State) {m : MemOperand} (h : m.indirect = true) :
    s.ea m = (s.mem.read (s.indexed m)).toNat := by
  simp [State.ea, h]

/-- An indirect address is a word, so it has at most 16 bits. -/
theorem State.ea_le_of_indirect (s : State) {m : MemOperand} (h : m.indirect = true) : s.ea m ≤ 65535 := by
  rw [s.ea_of_indirect h]
  exact Nat.le_of_lt_succ (BitVec.isLt _)

/-! ## The step -/

@[simp] theorem effectiveAddress_fst (m : MemOperand) (s : State) : (effectiveAddress m s).1 = s.ea m := rfl

/-- The step writes the stream alone (R20, R126). -/
theorem effectiveAddress_snd_with_diags (m : MemOperand) (s : State) :
    { (effectiveAddress m s).2 with diags := s.diags } = s := by
  rw [effectiveAddress_eq]

end Sys2Proof.Machine

open Sys2Proof Sys2Proof.Machine

/-- Settles O12: the sum in the statement is the indexed address, for each value of IX; then the address without and
with indirection, the bounds of both, and the state after the step. -/
theorem effectiveAddressIsIndexedThenIndirect : Obligations.EffectiveAddressIsIndexedThenIndirect := by
  intro s m base
  have hbase : base = s.indexed m := by
    obtain ⟨ix, indirect, address⟩ := m
    refine congrArg (address.val + ·) ?_
    match ix with
    | 0 => exact s.indexValue_zero.symm
    | 1 => exact (s.indexValue_succ 0).symm
    | 2 => exact (s.indexValue_succ 1).symm
    | 3 => exact (s.indexValue_succ 2).symm
  rw [hbase, effectiveAddress_fst, memRead_fst]
  refine ⟨s.indexed_le m, s.ea_of_direct, fun h => ⟨s.ea_of_indirect h, s.ea_le_of_indirect h⟩, ?state⟩
  case state => exact effectiveAddress_snd_with_diags m s

end

