-- ==== Sys2Proof/Proofs/FloatValue.lean ====
section
/-! PROOFS. The value of a floating-point word (spec/42_floating_point.md R170 to R174): the coding of the exponent, and
the scaled integer as a sign, a fraction and a power of two. -/

namespace Sys2Proof.Machine

/-! ## The fields -/

/-- The top bit is the field above the low 15 bits. -/
theorem fpSign_eq (w : Word) : fpSign w = decide (w.toNat / 32768 = 1) := by
  have hlt : w.toNat < 65536 := w.isLt
  rw [fpSign, BitVec.msb_eq_decide]
  exact decide_eq_decide.mpr (by omega)

theorem fpExpField_lt (w : Word) : fpExpField w < 128 := Nat.mod_lt _ (by decide)

/-! ## The exponent (R171) -/

theorem fpExponent_add_nonneg (w : Word) : 0 ≤ fpExponent w + 64 := by
  unfold fpExponent
  split <;> omega

/-- The coding is two's complement: the field is the exponent modulo 128. -/
theorem fpExponent_emod (w : Word) : fpExponent w % 128 = fpExpField w := by
  have hlt : fpExpField w < 128 := fpExpField_lt w
  unfold fpExponent
  split <;> omega

/-! ## The value (R172, R174) -/

/-- The sign as a factor, in place of the branch of the definition. -/
theorem fpScaled_eq_sign_mul (w : Word) :
    fpScaled w = (-1) ^ (w.toNat / 32768) * (fpMantissa w * 2 ^ (fpExponent w + 64).toNat) := by
  have hbit : w.toNat / 32768 = 0 ∨ w.toNat / 32768 = 1 := by
    have hlt : w.toNat < 65536 := w.isLt
    omega
  rcases hbit with h | h <;> simp [fpScaled, fpSign_eq, h]

/-- The scale of R174: 64 of the 72 places shift the exponent and the other 8 make the mantissa a fraction. -/
theorem fpScaled_div_eq (w : Word) :
    (fpScaled w : ℚ) / 2 ^ 72 =
      (-1) ^ (w.toNat / 32768) * ((fpMantissa w : ℚ) / 256) * (2 : ℚ) ^ fpExponent w := by
  have hpow : (2 : ℚ) ^ (fpExponent w + 64).toNat = (2 : ℚ) ^ fpExponent w * 2 ^ 64 := by
    rw [← zpow_natCast, Int.toNat_of_nonneg (fpExponent_add_nonneg w), zpow_add₀ two_ne_zero, zpow_ofNat]
  rw [fpScaled_eq_sign_mul]
  push_cast
  rw [hpow]
  ring

end Sys2Proof.Machine

open Sys2Proof Sys2Proof.Machine

/-- Settles O34: the statement writes out the fields and the exponent, which are those of the model's definitions. -/
theorem wordValueIsSignedFractionTimesPowerOfTwo : Obligations.WordValueIsSignedFractionTimesPowerOfTwo :=
  fun w => ⟨fpScaled_div_eq w, fpExponent_emod w⟩

end

