-- ==== Sys2Proof/Proofs/HostRun.lean ====
section
/-! PROOFS. The run loop (spec/44_host_operations.md R239, R240): every cycle answers a next state and advances PC by one,
a PC beyond memory fetches HLT, so a run halts within 2049 cycles (spec/40_cycle_and_effective_address.md R133). -/

namespace Sys2Proof.Machine

/-! ## Every meaning answers a next state and leaves PC as fetch left it -/

@[simp] theorem vectorOp_pc (op : VecOp) (n p : Nat) (s : State) : (vectorOp op n p s).pc = s.pc := by
  rw [vectorOp_frame]

theorem withFr_next_pc (r : Fin 4) (s : State) {body : Fin 2 → State} (hbody : ∀ f, (body f).pc = s.pc) :
    ∃ t, withFr r s body = .next t ∧ t.pc = s.pc := by
  by_cases hr : r.val < 2
  · exact ⟨_, withFr_of_lt hr s body, hbody _⟩
  · exact ⟨_, withFr_of_le (Nat.not_lt.mp hr) s body, raiseHalting_pc s _⟩

theorem exec_next_pc (i : Instr) (s : State) : ∃ t, exec i s = .next t ∧ t.pc = s.pc := by
  cases i with
  | hlt r m => exact ⟨_, rfl, s.resolve_pc m⟩
  | ldr r m | str r m => exact ⟨_, rfl, by simp⟩
  | cnvrt r m => match r with
    | 0 | 1 => exact ⟨_, rfl, by simp⟩
    | 2 | 3 => exact ⟨_, rfl, s.resolve_pc m⟩
  | fadd r m | fsub r m | ldfr r m | stfr r m | vadd r m | vsub r m =>
    rw [← s.resolve_pc m]
    exact withFr_next_pc r (s.resolve m) fun f => by simp [memRead]

/-! ## A step request -/

theorem step_of_instr {s : State} {i : Instr} (hrun : s.halted = false)
    (hdec : decodeWord (s.mem.read s.pc.toNat) = .instr i) : step s = exec i (fetch s) := by
  simp [step, hrun, hdec]

/-- A cycle completes and advances PC by one (R121, R237): no meaning writes PC. -/
theorem step_next_pc {s : State} (hrun : s.halted = false) : ∃ t, step s = .next t ∧ t.pc = s.pc + 1 := by
  cases hdec : decodeWord (s.mem.read s.pc.toNat) with
  | instr i =>
    rw [step_of_instr hrun hdec, ← fetch_pc]
    exact exec_next_pc i (fetch s)
  | unknownOpcode op =>
    rw [step_of_unknownOpcode hrun hdec, execUnknown_eq]
    exact ⟨_, rfl, fetch_pc s⟩

theorem stepRequest_of_step {s t : State} (h : step s = .next t) : stepRequest s = t := by
  rw [stepRequest, h]

theorem pc_stepRequest {s : State} (hrun : s.halted = false) : (stepRequest s).pc = s.pc + 1 := by
  obtain ⟨t, hstep, hpc⟩ := step_next_pc hrun
  rw [stepRequest_of_step hstep, hpc]

theorem decodeWord_zero : decodeWord 0 = .instr (.hlt 0 ⟨0, false, 0⟩) := by decide

/-- Beyond memory the fetched word is 0, which is HLT (R122, R133). -/
theorem halted_stepRequest_of_pc_beyond {s : State} (hrun : s.halted = false) (hpc : 2048 ≤ s.pc.toNat) :
    (stepRequest s).halted = true := by
  have hstep : step s = exec (.hlt 0 ⟨0, false, 0⟩) (fetch s) :=
    step_of_instr hrun (by rw [Memory.read_out_of_range s.mem hpc, decodeWord_zero])
  rw [stepRequest_of_step hstep, State.halt_halted]

/-! ## The run loop -/

theorem runFor_of_halted {s : State} (h : s.halted = true) (k : Nat) : runFor k s = s := by
  cases k with
  | zero => rfl
  | succ k => exact if_pos h

theorem runFor_succ_of_running {s : State} (hrun : s.halted = false) (k : Nat) :
    runFor (k + 1) s = runFor k (stepRequest s) := by
  simp [runFor, hrun]

/-- A run cancelled after `j` cycles goes on where it stopped. -/
theorem runFor_add (j k : Nat) (s : State) : runFor (j + k) s = runFor k (runFor j s) := by
  induction j generalizing s with
  | zero => rw [Nat.zero_add, runFor]
  | succ j ih =>
    cases hs : s.halted with
    | true => simp only [runFor_of_halted hs]
    | false => rw [Nat.succ_add, runFor_succ_of_running hs, runFor_succ_of_running hs, ih]

/-- The bound of R133: one cycle for each word from PC to the end of memory, and one for the HLT beyond it. -/
theorem halted_runFor_of_bound {n : Nat} {s : State} (h : 2048 ≤ s.pc.toNat + n) : (runFor (n + 1) s).halted = true := by
  induction n generalizing s with
  | zero =>
    cases hs : s.halted with
    | true => rwa [runFor_of_halted hs]
    | false =>
      rw [runFor_succ_of_running hs]
      exact halted_stepRequest_of_pc_beyond hs h
  | succ n ih =>
    cases hs : s.halted with
    | true => rwa [runFor_of_halted hs]
    | false =>
      rw [runFor_succ_of_running hs]
      by_cases hpc : 2048 ≤ s.pc.toNat
      · have hhalted := halted_stepRequest_of_pc_beyond hs hpc
        rwa [runFor_of_halted hhalted]
      · refine ih ?_
        rw [pc_stepRequest hs]
        bv_omega

theorem halted_runToHalt (s : State) : (runToHalt s).halted = true :=
  halted_runFor_of_bound (Nat.le_add_left 2048 s.pc.toNat)

theorem runFor_eq_runToHalt {k : Nat} (hk : 2049 ≤ k) (s : State) : runFor k s = runToHalt s := by
  obtain ⟨d, rfl⟩ := Nat.exists_eq_add_of_le hk
  rw [runFor_add]
  exact runFor_of_halted (halted_runToHalt s) d

end Sys2Proof.Machine

open Sys2Proof Sys2Proof.Machine

/-- Settles O48, from the bound on a run, the run loop in HALTED and in RUNNING, and a run as two runs. -/
theorem cancelledRunGoesOnWhereItStopped : Obligations.CancelledRunGoesOnWhereItStopped := by
  intro s
  refine ⟨halted_runToHalt s, fun h => runFor_of_halted h, ?cycle, fun j k => runFor_add j k s,
    fun _ hk => runFor_eq_runToHalt hk s⟩
  case cycle =>
    intro k hrun
    obtain ⟨t, hstep, -⟩ := step_next_pc hrun
    exact ⟨t, hstep, by rw [runFor_succ_of_running hrun, stepRequest_of_step hstep]⟩

end

