-- ==== Sys2Proof/Proofs/Encoding.lean ====
section
/-! PROOFS. Words and instructions (spec/30_encoding.md R80 to R92): the fields of an encoded word, the word of given
fields, the row an opcode selects, and decode and encode as inverses of each other. -/

namespace Sys2Proof

/-! ## The fields of an encoded word, and the word of its fields (R82) -/

/-- The five fields side by side fill sixteen bits. -/
theorem toNat_encodeFields (c : Fin 64) (r : Fin 4) (m : MemOperand) :
    (encodeFields c r m).toNat =
      c.val * 1024 + r.val * 256 + m.ix.val * 64 + m.indirect.toNat * 32 + m.address.val := by
  have hbit : m.indirect.toNat ≤ 1 := Bool.toNat_le m.indirect
  rw [encodeFields, BitVec.toNat_ofNat]
  exact Nat.mod_eq_of_lt (by omega)

@[simp] theorem opcodeField_encodeFields (c : Fin 64) (r : Fin 4) (m : MemOperand) :
    opcodeField (encodeFields c r m) = c := by
  have hbit : m.indirect.toNat ≤ 1 := Bool.toNat_le m.indirect
  refine Fin.ext ?_
  rw [opcodeField_val, toNat_encodeFields]
  omega

@[simp] theorem rField_encodeFields (c : Fin 64) (r : Fin 4) (m : MemOperand) : rField (encodeFields c r m) = r := by
  have hbit : m.indirect.toNat ≤ 1 := Bool.toNat_le m.indirect
  refine Fin.ext ?_
  simp only [rField, toNat_encodeFields]
  omega

@[simp] theorem operandField_encodeFields (c : Fin 64) (r : Fin 4) (m : MemOperand) :
    operandField (encodeFields c r m) = m := by
  obtain ⟨ix, indirect, address⟩ := m
  simp only [operandField, toNat_encodeFields, MemOperand.mk.injEq, Fin.ext_iff]
  cases indirect <;> simp <;> omega

theorem encodeFields_fields (w : Word) : encodeFields (opcodeField w) (rField w) (operandField w) = w := by
  have hbit : (w.toNat / 32 % 2 == 1).toNat = w.toNat / 32 % 2 := by
    rcases Nat.mod_two_eq_zero_or_one (w.toNat / 32) with h | h <;> simp [h]
  refine BitVec.eq_of_toNat_eq ?_
  simp only [toNat_encodeFields, opcodeField, rField, operandField, hbit]
  omega

/-! ## Rows (R86, R87) -/

/-- The row an instruction's opcode selects is the instruction's own, and builds it from its fields. -/
theorem opcodeRow (i : Instr) : Laws.OpcodeRow.Statement i := by
  cases i with
  | hlt r m => exact Laws.OpcodeRow.hlt r m
  | ldr r m => exact Laws.OpcodeRow.ldr r m
  | str r m => exact Laws.OpcodeRow.str r m
  | fadd r m => exact Laws.OpcodeRow.fadd r m
  | fsub r m => exact Laws.OpcodeRow.fsub r m
  | vadd r m => exact Laws.OpcodeRow.vadd r m
  | vsub r m => exact Laws.OpcodeRow.vsub r m
  | cnvrt r m => exact Laws.OpcodeRow.cnvrt r m
  | ldfr r m => exact Laws.OpcodeRow.ldfr r m
  | stfr r m => exact Laws.OpcodeRow.stfr r m

theorem Op.ofCode_code (o : Op) : Op.ofCode o.code = some o := by
  cases o <;> rfl

/-- Only the row's own opcode selects it. -/
theorem Op.code_of_ofCode {c : Fin 64} {o : Op} (h : Op.ofCode c = some o) : o.code = c := by
  simpa using List.find?_some h

theorem encode_instr (o : Op) (r : Fin 4) (m : MemOperand) : encode (o.instr r m) = encodeFields o.code r m := by
  cases o <;> rfl

/-- A word decodes to the instruction of the row that its opcode selects. -/
theorem decodeWord_of_code {w : Word} {o : Op} (h : w.toNat / 1024 = o.code.val) :
    decodeWord w = .instr (o.instr (rField w) (operandField w)) := by
  have hop : opcodeField w = o.code := Fin.ext h
  rw [decodeWord, hop, Op.ofCode_code]

theorem decodeWord_eq_instr_iff {w : Word} {i : Instr} :
    decodeWord w = .instr i ↔ ∃ o, Op.ofCode (opcodeField w) = some o ∧ o.instr (rField w) (operandField w) = i := by
  unfold decodeWord
  cases Op.ofCode (opcodeField w) <;> simp

/-! ## The round trip -/

theorem decodeWord_encode (i : Instr) : decodeWord (encode i) = .instr i := by
  obtain ⟨hrow, hfields⟩ := opcodeRow i
  refine decodeWord_eq_instr_iff.mpr ⟨i.op, ?_, ?_⟩
  · rw [encode, opcodeField_encodeFields, hrow]
  · rw [encode, rField_encodeFields, operandField_encodeFields, hfields]

theorem encode_of_decodeWord {w : Word} {i : Instr} (h : decodeWord w = .instr i) : encode i = w := by
  obtain ⟨o, ho, rfl⟩ := decodeWord_eq_instr_iff.mp h
  rw [encode_instr, Op.code_of_ofCode ho, encodeFields_fields]

end Sys2Proof

open Sys2Proof Sys2Proof.Machine

/-- Settles O7: the fields of the encoded word are the instruction's, and its opcode selects the instruction's row. -/
theorem decodeInvertsEncode : Obligations.DecodeInvertsEncode := decodeWord_encode

/-- Settles O8: the opcode of the selected row is the word's, and a word is the word of its fields. -/
theorem encodeInvertsDecode : Obligations.EncodeInvertsDecode := fun _ _ => encode_of_decodeWord

/-- Settles O6: each of the ten numbers is the code of its row, and the statement's fields are those of the model. -/
theorem opcodeAloneSelectsTheRow : Obligations.OpcodeAloneSelectsTheRow := by
  intro w r m
  have hm : m = operandField w := rfl
  have hr : r = rField w := rfl
  rw [hm, hr]
  exact ⟨decodeWord_of_code (o := .hlt), decodeWord_of_code (o := .ldr), decodeWord_of_code (o := .str),
    decodeWord_of_code (o := .fadd), decodeWord_of_code (o := .fsub), decodeWord_of_code (o := .vadd),
    decodeWord_of_code (o := .vsub), decodeWord_of_code (o := .cnvrt), decodeWord_of_code (o := .ldfr),
    decodeWord_of_code (o := .stfr)⟩

/-- Settles O9: each of the words is the word of its instruction, which decodes to it. -/
theorem workedExampleWordsDecode : Obligations.WorkedExampleWordsDecode :=
  ⟨decodeWord_encode (.hlt 0 ⟨0, false, 0⟩), decodeWord_encode (.ldr 1 ⟨0, false, 20⟩),
    decodeWord_encode (.str 1 ⟨0, false, 21⟩), decodeWord_encode (.fadd 0 ⟨0, false, 21⟩),
    decodeWord_encode (.fsub 1 ⟨0, false, 22⟩), decodeWord_encode (.vadd 1 ⟨0, false, 21⟩),
    decodeWord_encode (.vsub 0 ⟨0, false, 21⟩), decodeWord_encode (.cnvrt 1 ⟨2, false, 23⟩),
    decodeWord_encode (.ldfr 1 ⟨0, false, 20⟩), decodeWord_encode (.stfr 0 ⟨0, false, 23⟩)⟩

end

