-- ==== Sys2Proof/Proofs/FailSoft.lean ====
section
/-! PROOFS. Accesses in and beyond memory (spec/20_memory.md R52, R53), what a write leaves of memory, and the state of
reset (spec/10_state.md R37). -/

namespace Sys2Proof.Machine

/-! ## Events by the range of the address -/

theorem readEvents_of_lt {a : Nat} (h : a < 2048) : readEvents a = [] := if_pos h

theorem readEvents_of_le {a : Nat} (h : 2048 ≤ a) : readEvents a = [.outOfRangeRead a] := if_neg (Nat.not_lt.mpr h)

theorem writeEvents_of_lt {a : Nat} (h : a < 2048) : writeEvents a = [] := if_pos h

theorem writeEvents_of_le {a : Nat} (h : 2048 ≤ a) : writeEvents a = [.outOfRangeWrite a] := if_neg (Nat.not_lt.mpr h)

/-! ## Memory -/

theorem Memory.read_of_lt (m : Memory) {a : Nat} (h : a < 2048) : m.read a = m.word a := if_pos h

theorem Memory.word_write_same (m : Memory) {a : Nat} (h : a < 2048) (w : Word) : (m.write a w).word a = w := by
  rw [← Memory.read_of_lt _ h, Memory.read_write_same m h]

theorem Memory.byteAt_write_of_ne (m : Memory) (a : Nat) (w : Word) {b : Nat} (hlo : b ≠ 2 * a) (hhi : b ≠ 2 * a + 1) :
    (m.write a w).byteAt b = m.byteAt b :=
  m.byteAt_write_ne a w (by omega)

end Sys2Proof.Machine

open Sys2Proof Sys2Proof.Machine

/-- Settles O2, from the two primitives in full and the events by the range of the address. -/
theorem outOfRangeAccessIsFailSoft : Obligations.OutOfRangeAccessIsFailSoft := by
  intro s a w
  rw [memRead_eq, memWrite_eq]
  refine ⟨fun h => ?inRange, fun h => ?outOfRange⟩
  case inRange => simp [readEvents_of_lt h, writeEvents_of_lt h, s.mem.read_of_lt h]
  case outOfRange => simp [readEvents_of_le h, writeEvents_of_le h, h]

/-- Settles O13: the indirect read is out of range, so it gives 0 and one event. -/
theorem indirectReadBeyondMemoryGivesAddressZero : Obligations.IndirectReadBeyondMemoryGivesAddressZero := by
  intro s m hind haddr
  have hea : s.ea m = 0 := by rw [s.ea_of_indirect hind, s.mem.read_out_of_range haddr]; rfl
  rw [effectiveAddress_eq, hea, State.eaEvents, if_pos hind, readEvents_of_le haddr, List.singleton_append]

/-- Settles O4: every register of reset is 0 by its own value, and the empty list of bytes reads as 0. -/
theorem powerOnZeroesEverything : Obligations.PowerOnZeroesEverything := by
  refine ⟨fun r => ?registers, Memory.read_nil, rfl, rfl⟩
  case registers => cases r <;> simp [State.readReg, State.reset]

/-- Settles O42: the memory of reset lists no byte. -/
theorem resetMemoryIsCanonical : Obligations.ResetMemoryIsCanonical := Memory.wf_nil

end

