-- ==== Sys2Proof/Proofs/Meanings.lean ====
section
/-! PROOFS. The whole next state of each instruction's meaning (spec/41_halt_load_store.md, spec/42_floating_point.md,
spec/43_vector.md), for the operands it defines, and that of a reserved operand (spec/60_exceptions.md R254). -/

namespace Sys2Proof.Machine

/-! ## Instructions without a floating register -/

theorem exec_hlt (r : Fin 4) (m : MemOperand) (s : State) :
    exec (.hlt r m) s = .next { s with halted := true, diags := s.eaEvents m ++ s.diags } := by
  simp only [exec, execHlt, effectiveAddress_eq, State.halt]

theorem exec_ldr (r : Fin 4) (m : MemOperand) (s : State) :
    exec (.ldr r m) s = .next { s with gpr := s.gpr.set r.val (s.mem.read (s.ea m)) r.isLt,
                                       diags := readEvents (s.ea m) ++ (s.eaEvents m ++ s.diags) } := by
  simp only [exec, execLdr, effectiveAddress_eq, memRead_eq, State.setGpr]

theorem exec_str (r : Fin 4) (m : MemOperand) (s : State) :
    exec (.str r m) s = .next { s with mem := s.mem.write (s.ea m) s.gpr[r],
                                       diags := writeEvents (s.ea m) ++ (s.eaEvents m ++ s.diags) } := by
  simp only [exec, execStr, effectiveAddress_eq, memWrite_eq]

theorem exec_cnvrt_toFloat (m : MemOperand) (s : State) :
    exec (.cnvrt 0 m) s = .next { s with fr := s.fr.set 0 (intToFp (s.mem.read (s.ea m))),
                                         diags := readEvents (s.ea m) ++ (s.eaEvents m ++ s.diags) } := by
  simp only [exec, execCnvrt, effectiveAddress_eq, memRead_eq, State.setFr, Fin.val_zero]

theorem exec_cnvrt_toInt (m : MemOperand) (s : State) :
    exec (.cnvrt 1 m) s = .next { s with gpr := s.gpr.set m.ix.val (fpToInt (s.mem.read (s.ea m))) m.ix.isLt,
                                         diags := readEvents (s.ea m) ++ (s.eaEvents m ++ s.diags) } := by
  simp only [exec, execCnvrt, effectiveAddress_eq, memRead_eq, State.setGpr]

theorem exec_cnvrt_of_le {r : Fin 4} (h : 2 ≤ r.val) (m : MemOperand) (s : State) :
    exec (.cnvrt r m) s = .next { s with diags := s.eaEvents m ++ s.diags } := by
  match r with
  | 2 | 3 => simp only [exec, execCnvrt, effectiveAddress_eq]

/-! ## Instructions with a floating register, for R below 2 -/

section FloatingRegister
variable {r : Fin 4} (h : r.val < 2) (m : MemOperand) (s : State)

theorem exec_fadd :
    exec (.fadd r m) s = .next { s with fr := s.fr.set r.val (fpAdd s.fr[r.val] (s.mem.read (s.ea m))) h,
                                        diags := readEvents (s.ea m) ++ (s.eaEvents m ++ s.diags) } := by
  simp only [exec, execFadd, effectiveAddress_eq, withFr_of_lt h, memRead_eq, State.setFr, Fin.getElem_fin]

theorem exec_fsub :
    exec (.fsub r m) s = .next { s with fr := s.fr.set r.val (fpSub s.fr[r.val] (s.mem.read (s.ea m))) h,
                                        diags := readEvents (s.ea m) ++ (s.eaEvents m ++ s.diags) } := by
  simp only [exec, execFsub, effectiveAddress_eq, withFr_of_lt h, memRead_eq, State.setFr, Fin.getElem_fin]

theorem exec_ldfr :
    exec (.ldfr r m) s = .next { s with fr := s.fr.set r.val (s.mem.read (s.ea m)) h,
                                        diags := readEvents (s.ea m) ++ (s.eaEvents m ++ s.diags) } := by
  simp only [exec, execLdfr, effectiveAddress_eq, withFr_of_lt h, memRead_eq, State.setFr]

theorem exec_stfr :
    exec (.stfr r m) s = .next { s with mem := s.mem.write (s.ea m) s.fr[r.val],
                                        diags := writeEvents (s.ea m) ++ (s.eaEvents m ++ s.diags) } := by
  simp only [exec, execStfr, effectiveAddress_eq, withFr_of_lt h, memWrite_eq, Fin.getElem_fin]

end FloatingRegister

/-- The instruction of a vector operation. -/
def VecOp.instr : VecOp → Fin 4 → MemOperand → Instr
  | .add => .vadd
  | .sub => .vsub

theorem mem_vector_instrs_iff {i : Instr} {r : Fin 4} {m : MemOperand} :
    i ∈ [Instr.vadd r m, .vsub r m] ↔ ∃ op : VecOp, i = op.instr r m := by
  constructor
  · intro h
    obtain rfl | rfl := by simpa using h
    · exact ⟨.add, rfl⟩
    · exact ⟨.sub, rfl⟩
  · rintro ⟨op, rfl⟩
    cases op <;> simp [VecOp.instr]

theorem exec_vector (op : VecOp) {r : Fin 4} (h : r.val < 2) (m : MemOperand) (s : State) :
    exec (op.instr r m) s =
      .next (vectorOp op s.fr[r.val].toNat (s.ea m) { s with diags := s.eaEvents m ++ s.diags }) := by
  cases op <;>
    simp only [VecOp.instr, exec, execVadd, execVsub, effectiveAddress_eq, withFr_of_lt h, Fin.getElem_fin]

/-! ## Reserved operands -/

/-- An instruction that is not well formed selects no floating register: the event, HALTED, and nothing else. -/
theorem exec_of_not_wellFormed {i : Instr} (h : i.wellFormed = false) (s : State) :
    exec i s = .next { s with halted := true, diags := .reservedOperand s.ir :: (s.eaEvents i.mem ++ s.diags) } := by
  cases i with
  | hlt r m | ldr r m | str r m | cnvrt r m => simp [Instr.wellFormed] at h
  | fadd r m | fsub r m | vadd r m | vsub r m | ldfr r m | stfr r m =>
    have hr : 2 ≤ r.val := Nat.not_lt.mp (of_decide_eq_false h)
    exact (withFr_of_le hr _ _).trans (by rw [raiseReservedOperand_eq, State.resolve_eq]; rfl)

end Sys2Proof.Machine

open Sys2Proof Sys2Proof.Machine

/-- Settles O17: the meaning of HLT, in full. -/
theorem hltHaltsAndChangesNothingElse : Obligations.HltHaltsAndChangesNothingElse := exec_hlt

/-- Settles O18: the meaning of LDR, the fail-soft read written out. -/
theorem ldrLoadsTheWordAtEa : Obligations.LdrLoadsTheWordAtEa := exec_ldr

/-- Settles O20: the meaning of LDFR, the fail-soft read written out. -/
theorem ldfrLoadsTheWordAtEa : Obligations.LdfrLoadsTheWordAtEa := fun _ => exec_ldfr

/-- Settles O22: the meaning of FADD, the addition written out as the encoding of the exact sum. -/
theorem faddAddsTheWordAtEa : Obligations.FaddAddsTheWordAtEa := fun _ => exec_fadd

/-- Settles O23: the meaning of FSUB, the subtraction written out as the encoding of the exact difference. -/
theorem fsubSubtractsTheWordAtEa : Obligations.FsubSubtractsTheWordAtEa := fun _ => exec_fsub

/-- Settles O24: the meaning of CNVRT for each direction. -/
theorem cnvrtConvertsByDirection : Obligations.CnvrtConvertsByDirection := fun m s =>
  ⟨exec_cnvrt_toFloat m s, exec_cnvrt_toInt m s, fun _ hr => exec_cnvrt_of_le hr m s⟩

/-- Settles O25: with R of 2 or 3 none of the six instructions is well formed. -/
theorem reservedOperandHalts : Obligations.ReservedOperandHalts := by
  intro r m s hr i hi
  obtain ⟨hwf, hmem⟩ : i.wellFormed = false ∧ i.mem = m := by
    obtain rfl | rfl | rfl | rfl | rfl | rfl := by simpa using hi
    all_goals exact ⟨decide_eq_false (Nat.not_lt.mpr hr), rfl⟩
  rw [exec_of_not_wellFormed hwf, hmem]

/-- Settles O19, from the meaning of STR and what a write leaves of memory. -/
theorem strStoresTheRegisterAtEa : Obligations.StrStoresTheRegisterAtEa := fun r m s =>
  ⟨_, exec_str r m s, rfl, fun h => s.mem.word_write_same h _,
    fun _ _ hlo hhi => s.mem.byteAt_write_of_ne _ _ hlo hhi, fun h => s.mem.write_out_of_range h _⟩

/-- Settles O21, from the meaning of STFR and what a write leaves of memory. -/
theorem stfrStoresTheRegisterAtEa : Obligations.StfrStoresTheRegisterAtEa := fun _ h m s =>
  ⟨_, exec_stfr h m s, rfl, fun h => s.mem.word_write_same h _,
    fun _ _ hlo hhi => s.mem.byteAt_write_of_ne _ _ hlo hhi, fun h => s.mem.write_out_of_range h _⟩

end

