-- ==== Sys2Proof/Proofs/Effects.lean ====
section
/-! PROOFS. What a meaning can do, said once (the access matrix of spec/10_state.md R36): the registers an instruction
can write, whether it stores and whether it halts; and that no meaning reads the stream (R33). -/

namespace Sys2Proof

/-- The general register an instruction writes (R36): `GPR[R]` of LDR, and `GPR[IX]` of CNVRT with R 1 (D24). -/
def Instr.gprWritten : Instr → Option (Fin 4)
  | .ldr r _ => some r
  | .cnvrt r m => if r = 1 then some m.ix else none
  | _ => none

/-- The floating register an instruction writes (R36): the selected one, and FR0 of CNVRT with R 0. -/
def Instr.frWritten : Instr → Option (Fin 2)
  | .fadd r _ | .fsub r _ | .ldfr r _ => Machine.frSelect r
  | .cnvrt r _ => if r = 0 then some 0 else none
  | _ => none

/-- The instructions that store to memory (R36). -/
def Instr.stores : Instr → Bool
  | .str _ _ | .stfr _ _ | .vadd _ _ | .vsub _ _ => true
  | _ => false

end Sys2Proof

namespace Sys2Proof.Machine

/-- What the meaning of `i` can make of `s`: `t` differs in the registers that `i` writes, in HALTED if `i` halts, in
memory if `i` stores, and by events added to the stream; a canonical memory stays canonical. -/
structure ExecEffect (i : Instr) (s t : State) : Prop where
  frame : t = { s with gpr := t.gpr, fr := t.fr, halted := t.halted, mem := t.mem, diags := t.diags }
  gpr : ∀ j : Fin 4, i.gprWritten ≠ some j → t.gpr[j] = s.gpr[j]
  fr : ∀ f : Fin 2, i.frWritten ≠ some f → t.fr[f] = s.fr[f]
  halted : t.halted = (s.halted || haltsOn (.instr i))
  mem : i.stores = false → t.mem = s.mem
  wf : s.mem.wf → t.mem.wf
  diags : ∃ es, t.diags = es ++ s.diags

/-! ## The shapes of an effect -/

section Shapes
variable {i : Instr} {s : State} {w : Word} {es es' : List Diag}

theorem execEffect_of_halting (h : haltsOn (.instr i) = true) :
    ExecEffect i s { s with halted := true, diags := es ++ s.diags } where
  frame := rfl
  gpr _ _ := rfl
  fr _ _ := rfl
  halted := by simp [h]
  mem _ := rfl
  wf := id
  diags := ⟨es, rfl⟩

/-! The other shapes are those of a well-formed instruction that is not HLT. -/

section Running
variable (hwf : i.wellFormed = true)
include hwf

/-- Only the stream changes. -/
theorem execEffect_of_diags (h : haltsOn (.instr i) = !i.wellFormed := by rfl) :
    ExecEffect i s { s with diags := es ++ s.diags } where
  frame := rfl
  gpr _ _ := rfl
  fr _ _ := rfl
  halted := by simp [h, hwf]
  mem _ := rfl
  wf := id
  diags := ⟨es, rfl⟩

theorem execEffect_of_gpr {k : Fin 4} (hk : i.gprWritten = some k)
    (h : haltsOn (.instr i) = !i.wellFormed := by rfl) :
    ExecEffect i s { s with gpr := s.gpr.set k.val w k.isLt, diags := es ++ (es' ++ s.diags) } where
  frame := rfl
  gpr j hj := by
    have hkj : k.val ≠ j.val := fun e => hj (hk.trans (congrArg some (Fin.ext e)))
    exact Vector.getElem_set_ne k.isLt j.isLt hkj
  fr _ _ := rfl
  halted := by simp [h, hwf]
  mem _ := rfl
  wf := id
  diags := ⟨es ++ es', (List.append_assoc ..).symm⟩

theorem execEffect_of_fr {k : Fin 2} (hk : i.frWritten = some k)
    (h : haltsOn (.instr i) = !i.wellFormed := by rfl) :
    ExecEffect i s { s with fr := s.fr.set k.val w k.isLt, diags := es ++ (es' ++ s.diags) } where
  frame := rfl
  gpr _ _ := rfl
  fr f hf := by
    have hkf : k.val ≠ f.val := fun e => hf (hk.trans (congrArg some (Fin.ext e)))
    exact Vector.getElem_set_ne k.isLt f.isLt hkf
  halted := by simp [h, hwf]
  mem _ := rfl
  wf := id
  diags := ⟨es ++ es', (List.append_assoc ..).symm⟩

theorem execEffect_of_mem (hi : i.stores = true) {m : Memory} {d : List Diag}
    (hm : s.mem.wf → m.wf) (hdiags : ∃ es, d = es ++ s.diags)
    (h : haltsOn (.instr i) = !i.wellFormed := by rfl) :
    ExecEffect i s { s with mem := m, diags := d } where
  frame := rfl
  gpr _ _ := rfl
  fr _ _ := rfl
  halted := by simp [h, hwf]
  mem h := by simp [hi] at h
  wf := hm
  diags := hdiags

theorem execEffect_of_write {a : Nat} (hi : i.stores = true)
    (h : haltsOn (.instr i) = !i.wellFormed := by rfl) :
    ExecEffect i s { s with mem := s.mem.write a w, diags := es ++ (es' ++ s.diags) } :=
  execEffect_of_mem hwf hi (fun hm => Memory.wf_write hm a w) ⟨es ++ es', (List.append_assoc ..).symm⟩ h

end Running

end Shapes

/-! ## Every meaning has its effect -/

theorem haltsOn_of_not_wellFormed {i : Instr} (h : i.wellFormed = false) : haltsOn (.instr i) = true := by
  cases i with
  | hlt r m => rfl
  | _ => simp [haltsOn, h]

theorem exec_vector_effect (op : VecOp) {r : Fin 4} (h : r.val < 2) (m : MemOperand) (s : State) :
    ∃ t, exec (op.instr r m) s = .next t ∧ ExecEffect (op.instr r m) s t := by
  refine ⟨_, exec_vector op h m s, ?_⟩
  rw [vectorOp_frame]
  have hdiags : ∃ es, (vectorOp op s.fr[r.val].toNat (s.ea m) { s with diags := s.eaEvents m ++ s.diags }).diags =
      es ++ s.diags := by
    obtain ⟨es, hes⟩ := vectorOp_diags op s.fr[r.val].toNat (s.ea m) { s with diags := s.eaEvents m ++ s.diags }
    exact ⟨es ++ s.eaEvents m, by rw [hes, List.append_assoc]⟩
  cases op with
  | add => exact execEffect_of_mem (i := .vadd r m) (decide_eq_true h) rfl (fun hm => vectorOp_wf _ _ _ hm) hdiags
  | sub => exact execEffect_of_mem (i := .vsub r m) (decide_eq_true h) rfl (fun hm => vectorOp_wf _ _ _ hm) hdiags

/-- Every meaning answers a next state (R269), and its effect is within the access matrix (R36). -/
theorem exec_effect (i : Instr) (s : State) : ∃ t, exec i s = .next t ∧ ExecEffect i s t := by
  cases hwf : i.wellFormed with
  | false =>
    exact ⟨_, exec_of_not_wellFormed hwf s, execEffect_of_halting (es := _ :: _) (haltsOn_of_not_wellFormed hwf)⟩
  | true =>
    cases i with
    | hlt r m => exact ⟨_, exec_hlt r m s, execEffect_of_halting rfl⟩
    | ldr r m => exact ⟨_, exec_ldr r m s, execEffect_of_gpr hwf rfl⟩
    | str r m => exact ⟨_, exec_str r m s, execEffect_of_write hwf rfl⟩
    | fadd r m =>
      have hr : r.val < 2 := of_decide_eq_true hwf
      exact ⟨_, exec_fadd hr m s, execEffect_of_fr hwf (frSelect_of_lt hr)⟩
    | fsub r m =>
      have hr : r.val < 2 := of_decide_eq_true hwf
      exact ⟨_, exec_fsub hr m s, execEffect_of_fr hwf (frSelect_of_lt hr)⟩
    | ldfr r m =>
      have hr : r.val < 2 := of_decide_eq_true hwf
      exact ⟨_, exec_ldfr hr m s, execEffect_of_fr hwf (frSelect_of_lt hr)⟩
    | stfr r m => exact ⟨_, exec_stfr (of_decide_eq_true hwf) m s, execEffect_of_write hwf rfl⟩
    | vadd r m => exact exec_vector_effect .add (of_decide_eq_true hwf) m s
    | vsub r m => exact exec_vector_effect .sub (of_decide_eq_true hwf) m s
    | cnvrt r m =>
      match r with
      | 0 => exact ⟨_, exec_cnvrt_toFloat m s, execEffect_of_fr (k := 0) hwf rfl⟩
      | 1 => exact ⟨_, exec_cnvrt_toInt m s, execEffect_of_gpr hwf rfl⟩
      | 2 | 3 => exact ⟨_, exec_cnvrt_of_le (by decide) m s, execEffect_of_diags hwf⟩

theorem execEffect_of_exec {i : Instr} {s t : State} (h : exec i s = .next t) : ExecEffect i s t := by
  obtain ⟨t', ht', heffect⟩ := exec_effect i s
  cases h.symm.trans ht'
  exact heffect

/-! ## No meaning reads the stream (R33) -/

theorem vectorOp_mem (op : VecOp) (n p : Nat) (s : State) :
    (vectorOp op n p s).mem = (vectorLoop op (s.mem.read p).toNat (s.mem.read (p + 1)).toNat n 0 s).mem := by
  by_cases hn : n = 0
  · subst hn; rfl
  · rw [vectorOp_pos op hn]
    exact vectorLoop_mem_congr op _ _ n 0 rfl

theorem vectorOp_mem_congr (op : VecOp) (n p : Nat) {s t : State} (h : t.mem = s.mem) :
    (vectorOp op n p t).mem = (vectorOp op n p s).mem := by
  rw [vectorOp_mem, vectorOp_mem, h]
  exact vectorLoop_mem_congr op _ _ n 0 h

/-- What the operation makes of a state but for the stream. -/
theorem vectorOp_clear_diags (op : VecOp) (n p : Nat) {s t : State} (d : List Diag) (h : t = { s with diags := d }) :
    { vectorOp op n p t with diags := [] } = { vectorOp op n p s with diags := [] } := by
  subst h
  rw [vectorOp_frame op n p s, vectorOp_frame op n p { s with diags := d },
    vectorOp_mem_congr op n p (s := s) (t := { s with diags := d }) rfl]

/-- A result whose state does not depend on the stream but in the stream itself. -/
def IgnoresDiags (f : State → Result) : Prop :=
  ∀ (s : State) (d : List Diag), ∃ t t', f s = .next t ∧ f { s with diags := d } = .next t' ∧
    { t' with diags := [] } = { t with diags := [] }

theorem exec_vector_ignoresDiags (op : VecOp) {r : Fin 4} (h : r.val < 2) (m : MemOperand) :
    IgnoresDiags (exec (op.instr r m)) := fun s d =>
  ⟨_, _, exec_vector op h m s, exec_vector op h m { s with diags := d }, vectorOp_clear_diags op _ _ _ rfl⟩

theorem exec_ignoresDiags (i : Instr) : IgnoresDiags (exec i) := by
  intro s d
  cases hwf : i.wellFormed with
  | false => exact ⟨_, _, exec_of_not_wellFormed hwf s, exec_of_not_wellFormed hwf _, rfl⟩
  | true =>
    cases i with
    | hlt r m => exact ⟨_, _, exec_hlt r m s, exec_hlt r m _, rfl⟩
    | ldr r m => exact ⟨_, _, exec_ldr r m s, exec_ldr r m _, rfl⟩
    | str r m => exact ⟨_, _, exec_str r m s, exec_str r m _, rfl⟩
    | fadd r m =>
      have hr : r.val < 2 := of_decide_eq_true hwf
      exact ⟨_, _, exec_fadd hr m s, exec_fadd hr m _, rfl⟩
    | fsub r m =>
      have hr : r.val < 2 := of_decide_eq_true hwf
      exact ⟨_, _, exec_fsub hr m s, exec_fsub hr m _, rfl⟩
    | ldfr r m =>
      have hr : r.val < 2 := of_decide_eq_true hwf
      exact ⟨_, _, exec_ldfr hr m s, exec_ldfr hr m _, rfl⟩
    | stfr r m =>
      have hr : r.val < 2 := of_decide_eq_true hwf
      exact ⟨_, _, exec_stfr hr m s, exec_stfr hr m _, rfl⟩
    | vadd r m => exact exec_vector_ignoresDiags .add (of_decide_eq_true hwf) m s d
    | vsub r m => exact exec_vector_ignoresDiags .sub (of_decide_eq_true hwf) m s d
    | cnvrt r m =>
      match r with
      | 0 => exact ⟨_, _, exec_cnvrt_toFloat m s, exec_cnvrt_toFloat m _, rfl⟩
      | 1 => exact ⟨_, _, exec_cnvrt_toInt m s, exec_cnvrt_toInt m _, rfl⟩
      | 2 | 3 => exact ⟨_, _, exec_cnvrt_of_le (by decide) m s, exec_cnvrt_of_le (by decide) m _, rfl⟩

end Sys2Proof.Machine
end

