-- ==== Sys2Proof/Proofs/Cycle.lean ====
section
/-! PROOFS. One step (spec/40_cycle_and_effective_address.md R131, spec/44_host_operations.md R237, R238): what a cycle does
whatever its word, and the invariants that follow. -/

namespace Sys2Proof.Machine

/-! ## What a step can do -/

/-- What every cycle does (R121, R36): the fetch step's registers, no index register, HALTED exactly for a halting word,
a canonical memory stays canonical, and the stream only grows. -/
structure CycleEffect (s t : State) : Prop where
  pc : t.pc = s.pc + 1
  mar : t.mar = s.pc
  mbr : t.mbr = s.mem.read s.pc.toNat
  ir : t.ir = s.mem.read s.pc.toNat
  ixr : t.ixr = s.ixr
  halted : t.halted = haltsOn (decodeWord (s.mem.read s.pc.toNat))
  wf : s.mem.wf → t.mem.wf
  diags : ∃ es, t.diags = es ++ s.diags

theorem fetch_diags (s : State) : (fetch s).diags = readEvents s.pc.toNat ++ s.diags := by
  rw [fetch_eq]

theorem cycleEffect_of_execEffect {i : Instr} {s t : State} (hrun : s.halted = false)
    (hdec : decodeWord (s.mem.read s.pc.toNat) = .instr i) (h : ExecEffect i (fetch s) t) : CycleEffect s t where
  pc := (congrArg State.pc h.frame).trans (fetch_pc s)
  mar := (congrArg State.mar h.frame).trans (fetch_mar s)
  mbr := (congrArg State.mbr h.frame).trans (fetch_mbr s)
  ir := (congrArg State.ir h.frame).trans (fetch_ir s)
  ixr := (congrArg State.ixr h.frame).trans (fetch_ixr s)
  halted := by rw [h.halted, fetch_halted, hrun, hdec, Bool.false_or]
  wf hwf := h.wf (by rwa [fetch_mem])
  diags := by
    obtain ⟨es, hes⟩ := h.diags
    exact ⟨es ++ readEvents s.pc.toNat, by rw [hes, fetch_diags, List.append_assoc]⟩

/-- A cycle completes (R133, R269), and this is what it does. -/
theorem step_cycle {s : State} (hrun : s.halted = false) : ∃ t, step s = .next t ∧ CycleEffect s t := by
  cases hdec : decodeWord (s.mem.read s.pc.toNat) with
  | instr i =>
    obtain ⟨t, hexec, heffect⟩ := exec_effect i (fetch s)
    exact ⟨t, (step_of_instr hrun hdec).trans hexec, cycleEffect_of_execEffect hrun hdec heffect⟩
  | unknownOpcode op =>
    refine ⟨_, (step_of_unknownOpcode hrun hdec).trans (execUnknown_eq op (fetch s)), ?_⟩
    exact
      { pc := fetch_pc s, mar := fetch_mar s, mbr := fetch_mbr s, ir := fetch_ir s, ixr := fetch_ixr s,
        halted := by rw [hdec]; rfl
        wf := fun hwf => by rwa [← fetch_mem s] at hwf
        diags := ⟨.unknownOpcode op :: ((fetch s).eaEvents (operandField (fetch s).ir) ++ readEvents s.pc.toNat),
          by simp only [fetch_diags, List.append_assoc, List.cons_append]⟩ }

/-- Every step is that of HALTED or a cycle. -/
theorem step_cases {s t : State} (h : step s = .next t) :
    (s.halted = true ∧ t = s) ∨ (s.halted = false ∧ CycleEffect s t) := by
  cases hs : s.halted with
  | true =>
    cases h.symm.trans (step_of_halted hs)
    exact .inl ⟨rfl, rfl⟩
  | false =>
    obtain ⟨t', ht', heffect⟩ := step_cycle hs
    cases h.symm.trans ht'
    exact .inr ⟨rfl, heffect⟩

theorem step_completes (s : State) : ∃ t, step s = .next t := by
  cases hs : s.halted with
  | true => exact ⟨s, step_of_halted hs⟩
  | false =>
    obtain ⟨t, ht, -⟩ := step_cycle hs
    exact ⟨t, ht⟩

theorem inv_of_step {s t : State} (hinv : s.Inv) (h : step s = .next t) : t.Inv := by
  rcases step_cases h with ⟨-, rfl⟩ | ⟨-, hcycle⟩
  · exact hinv
  · exact hcycle.wf hinv

theorem stream_of_diags {s t : State} (h : ∃ es, t.diags = es ++ s.diags) : ∃ es, t.stream = s.stream ++ es := by
  obtain ⟨es, hes⟩ := h
  exact ⟨es.reverse, by rw [State.stream, State.stream, hes, List.reverse_append]⟩

theorem diags_of_step {s t : State} (h : step s = .next t) : ∃ es, t.diags = es ++ s.diags := by
  rcases step_cases h with ⟨-, rfl⟩ | ⟨-, hcycle⟩
  · exact ⟨[], rfl⟩
  · exact hcycle.diags

/-! ## Fetches in and beyond memory -/

theorem fetch_of_lt {s : State} (h : s.pc.toNat < 2048) :
    fetch s = { s with mar := s.pc, mbr := s.mem.word s.pc.toNat, ir := s.mem.word s.pc.toNat, pc := s.pc + 1 } := by
  rw [fetch_eq, readEvents_of_lt h, s.mem.read_of_lt h, List.nil_append]

theorem fetch_of_le {s : State} (h : 2048 ≤ s.pc.toNat) :
    fetch s = { s with mar := s.pc, mbr := 0, ir := 0, pc := s.pc + 1,
                       diags := .outOfRangeRead s.pc.toNat :: s.diags } := by
  rw [fetch_eq, readEvents_of_le h, s.mem.read_out_of_range h, List.singleton_append]

/-! ## What a step does not read -/

/-- The fetch step overwrites MAR, MBR and IR before anything reads them (R235). -/
theorem fetch_with_staging (s : State) (a : AddrReg) (b c : Word) :
    fetch { s with mar := a, mbr := b, ir := c } = fetch s := by
  rw [fetch_eq, fetch_eq]

theorem step_of_fetch_eq {s s' : State} (hs : s.halted = false) (hs' : s'.halted = false) (h : fetch s' = fetch s) :
    step s' = step s := by
  simp [step, hs, hs', h]

theorem fetch_with_diags (s : State) (d : List Diag) :
    fetch { s with diags := d } = { fetch s with diags := readEvents s.pc.toNat ++ d } := by
  rw [fetch_eq, fetch_eq]

theorem execUnknown_ignoresDiags (op : Fin 64) : IgnoresDiags (execUnknown op) := fun s _ =>
  ⟨_, _, execUnknown_eq op s, execUnknown_eq op _, rfl⟩

theorem step_ignoresDiags : IgnoresDiags step := by
  intro s d
  rcases Bool.eq_false_or_eq_true s.halted with hs | hs
  · exact ⟨_, _, step_of_halted hs, step_of_halted (s := { s with diags := d }) hs, rfl⟩
  · cases hdec : decodeWord (s.mem.read s.pc.toNat) with
    | instr i =>
      rw [step_of_instr hs hdec, step_of_instr (s := { s with diags := d }) hs hdec, fetch_with_diags s d]
      exact exec_ignoresDiags i (fetch s) _
    | unknownOpcode op =>
      rw [step_of_unknownOpcode hs hdec, step_of_unknownOpcode (s := { s with diags := d }) hs hdec, fetch_with_diags s d]
      exact execUnknown_ignoresDiags op (fetch s) _

end Sys2Proof.Machine

open Sys2Proof Sys2Proof.Machine

/-- Settles O43: HALTED changes nothing, and every cycle keeps a canonical memory canonical. -/
theorem everyStepKeepsMemoryCanonical : Obligations.EveryStepKeepsMemoryCanonical := fun _ _ => inv_of_step

/-- Settles O52: neither the fetch step nor any meaning reads the stream. -/
theorem stepNeverReadsTheDiagnostics : Obligations.StepNeverReadsTheDiagnostics := by
  intro s t d h
  obtain ⟨t₁, t', ht₁, ht', hagree⟩ := step_ignoresDiags s d
  cases h.symm.trans ht₁
  exact ⟨t', ht', hagree⟩

/-- Settles O10, from what every cycle does. -/
theorem everyCycleFetchesAndAdvancesPc : Obligations.EveryCycleFetchesAndAdvancesPc := by
  intro s hrun
  obtain ⟨t, hstep, hcycle⟩ := step_cycle hrun
  refine ⟨t, hstep, hcycle.mar, hcycle.mbr, hcycle.ir.trans hcycle.mbr.symm, ?pc⟩
  case pc => rw [hcycle.pc]; exact BitVec.toNat_add s.pc 1

/-- Settles O16: in memory the fetch step has no event, and the rest is the execution of an unknown opcode. -/
theorem unknownOpcodeLeavesEverythingElse : Obligations.UnknownOpcodeLeavesEverythingElse := by
  intro s op hrun hpc hdec
  rw [← s.mem.read_of_lt hpc] at hdec
  rw [step_of_unknownOpcode hrun hdec, execUnknown_eq, fetch_of_lt hpc]
  rfl

/-- Settles O11: the two bytes at PC are the word that the fetch step reads. -/
theorem stepRunsTheDecodedInstruction : Obligations.StepRunsTheDecodedInstruction := by
  intro s i hrun hpc hbytes
  have hdec : decodeWord (s.mem.read s.pc.toNat) = .instr i := by
    rw [s.mem.read_of_lt hpc]
    exact Option.some.inj hbytes
  rw [step_of_instr hrun hdec, fetch_of_lt hpc]

/-- Settles O14: beyond memory the fetched word is 0, which is the direct HLT. -/
theorem fetchBeyondMemoryHalts : Obligations.FetchBeyondMemoryHalts := by
  intro s hrun hpc
  have hdec : decodeWord (s.mem.read s.pc.toNat) = .instr (.hlt 0 ⟨0, false, 0⟩) := by
    rw [s.mem.read_out_of_range hpc, decodeWord_zero]
  rw [step_of_instr hrun hdec, exec_hlt, fetch_of_le hpc]
  rfl

/-- Settles O41: a step in HALTED, a cycle and a meaning each answer a next state. -/
theorem everyStepCompletes : Obligations.EveryStepCompletes := by
  refine ⟨step_completes, fun i s => ?meaning⟩
  case meaning =>
    obtain ⟨t, ht, -⟩ := exec_effect i s
    exact ⟨t, ht⟩

/-- Settles O45: a cycle reads MBR and IR in one access and leaves PC one past MAR. -/
theorem cycleLeavesStagingRegistersInStep : Obligations.CycleLeavesStagingRegistersInStep := by
  intro s t h hsettled
  rcases step_cases h with ⟨hs, rfl⟩ | ⟨-, hcycle⟩
  · exact hsettled hs
  · exact ⟨hcycle.mbr.trans hcycle.ir.symm, by rw [hcycle.pc, hcycle.mar]⟩

/-- Settles O49, from what every cycle does. -/
theorem noStepWritesAnIndexRegister : Obligations.NoStepWritesAnIndexRegister := by
  intro s t h
  rcases step_cases h with ⟨-, rfl⟩ | ⟨-, hcycle⟩
  · rfl
  · exact hcycle.ixr

/-- Settles O50, from what every cycle does. -/
theorem onlyHaltingWordsHalt : Obligations.OnlyHaltingWordsHalt := by
  intro s t hrun h
  rcases step_cases h with ⟨hs, -⟩ | ⟨-, hcycle⟩
  · simp [hrun] at hs
  · exact hcycle.halted

/-- Settles O53: the fetch step leaves the same state whatever MAR, MBR and IR held. -/
theorem stagingRegistersAreNoInput : Obligations.StagingRegistersAreNoInput := fun s a b c hrun =>
  step_of_fetch_eq hrun hrun (fetch_with_staging s a b c)

end

