-- ==== Sys2Proof/Proofs/HostOperations.lean ====
section
/-! PROOFS. The host's operations (spec/44_host_operations.md R230 to R242): what each keeps of the state, what a load
writes, and the host's run of the machine as the run loop. -/

namespace Sys2Proof.Machine

/-! ## What the operations keep -/

/-- A relation between the state before and after that every operation of the host but power-on meets: it suffices
that it is reflexive and transitive and that each kind of access and a step meet it. -/
structure HostKeeps (R : State → State → Prop) : Prop where
  refl : ∀ s, R s s
  trans : ∀ {s t u}, R s t → R t u → R s u
  memoryReset : ∀ s, R s (memoryReset s)
  noteRead : ∀ s a, R s (s.noteRead a)
  hostWrite : ∀ s a v, R s (hostWrite a v s)
  writeReg : ∀ s r v, R s (s.writeReg r v)
  step : ∀ s, R s (stepRequest s)

section Keeps
variable {R : State → State → Prop} (h : HostKeeps R)
include h

theorem HostKeeps.load (p : List (Nat × Int)) (s : State) : R s (load p s) := by
  induction p generalizing s with
  | nil => exact h.refl s
  | cons c p ih => exact h.trans (h.hostWrite s c.1 c.2) (ih _)

theorem HostKeeps.runFor (k : Nat) (s : State) : R s (runFor k s) := by
  induction k generalizing s with
  | zero => exact h.refl s
  | succ k ih =>
    unfold Machine.runFor
    split
    · exact h.refl s
    · exact h.trans (h.step s) (ih _)

theorem HostKeeps.apply {op : HostOp} (hop : op ≠ .powerOn) (s : State) : R s (op.apply s) := by
  cases op with
  | powerOn => exact absurd rfl hop
  | memoryReset => exact h.memoryReset s
  | memoryRead a => exact h.noteRead s a
  | memoryWrite a v => exact h.hostWrite s a v
  | load p => exact h.load p s
  | registerWrite r v => exact h.writeReg s r v
  | inspect => exact h.refl s
  | step => exact h.step s
  | run cancel => cases cancel with
    | none => exact h.runFor _ s
    | some k => exact h.runFor k s

end Keeps

/-- A step request is a step (R237). -/
theorem step_stepRequest (s : State) : step s = .next (stepRequest s) := by
  obtain ⟨t, ht⟩ := step_completes s
  rw [stepRequest_of_step ht, ht]

/-! ### A register write leaves memory, the stream and HALTED alone (R235) -/

@[simp] theorem State.writeReg_mem (s : State) (r : RegName) (v : Int) : (s.writeReg r v).mem = s.mem := by
  cases r <;> rfl

@[simp] theorem State.writeReg_diags (s : State) (r : RegName) (v : Int) : (s.writeReg r v).diags = s.diags := by
  cases r <;> rfl

@[simp] theorem State.writeReg_halted (s : State) (r : RegName) (v : Int) : (s.writeReg r v).halted = s.halted := by
  cases r <;> rfl

/-! ### The three relations -/

theorem hostKeeps_inv : HostKeeps fun s t => s.Inv → t.Inv where
  refl _ := id
  trans hst htu := htu ∘ hst
  memoryReset _ _ := Memory.wf_nil
  noteRead s a hs := by rwa [State.Inv, s.noteRead_mem]
  hostWrite _ a v hs := Memory.wf_write hs a (mask16 v)
  writeReg s r v hs := by rwa [State.Inv, s.writeReg_mem]
  step s hs := inv_of_step hs (step_stepRequest s)

theorem hostKeeps_halted : HostKeeps fun s t => s.halted = true → t.halted = true where
  refl _ := id
  trans hst htu := htu ∘ hst
  memoryReset _ := id
  noteRead s a hs := by rwa [s.noteRead_halted]
  hostWrite s a v hs := (memWrite_halted s a (mask16 v)).trans hs
  writeReg s r v hs := by rwa [s.writeReg_halted]
  step s hs := by rwa [stepRequest_of_step (step_of_halted hs)]

theorem hostKeeps_diags : HostKeeps fun s t => ∃ es, t.diags = es ++ s.diags where
  refl _ := ⟨[], rfl⟩
  trans := by
    rintro s t u ⟨es, hes⟩ ⟨es', hes'⟩
    exact ⟨es' ++ es, by rw [hes', hes, List.append_assoc]⟩
  memoryReset _ := ⟨[], rfl⟩
  noteRead s a := ⟨readEvents a, by rw [s.noteRead_eq]⟩
  hostWrite s a v := ⟨writeEvents a, by rw [hostWrite, memWrite_eq]⟩
  writeReg s r v := ⟨[], s.writeReg_diags r v⟩
  step s := diags_of_step (step_stepRequest s)

/-! ## Loads (R233) -/

theorem load_frame (p : List (Nat × Int)) (s : State) :
    load p s = { s with mem := (load p s).mem, diags := (load p s).diags } := by
  induction p generalizing s with
  | nil => rfl
  | cons c p ih =>
    have hload : load (c :: p) s = load p (hostWrite c.1 c.2 s) := rfl
    rw [hload, ih, hostWrite, memWrite_eq]

/-- A word outside the mapping stays. -/
theorem read_load_of_not_mem {p : List (Nat × Int)} {a : Nat} (h : a ∉ p.map (·.1)) (s : State) :
    (load p s).mem.read a = s.mem.read a := by
  induction p generalizing s with
  | nil => rfl
  | cons c p ih =>
    obtain ⟨hc, hp⟩ := not_or.mp (mt List.mem_cons.mpr h)
    exact (ih hp (hostWrite c.1 c.2 s)).trans (Memory.read_write_ne _ (Ne.symm hc) _)

/-- A word of the mapping is written, and no later pair has its address. -/
theorem read_load_of_mem {p : List (Nat × Int)} (hp : (p.map (·.1)).Nodup) {a : Nat} {v : Int} (h : (a, v) ∈ p)
    (ha : a < 2048) (s : State) : (load p s).mem.read a = mask16 v := by
  induction p generalizing s with
  | nil => simp at h
  | cons c p ih =>
    obtain ⟨hc, hp⟩ := List.nodup_cons.mp hp
    rcases List.mem_cons.mp h with rfl | h
    · exact (read_load_of_not_mem hc _).trans (Memory.read_write_same _ ha _)
    · exact ih hp h (hostWrite c.1 c.2 s)

/-! ## The host's run is the run loop -/

theorem core_run_eq_runFor (k : Nat) (s : State) : Sys2Proof.core.run k s = .next (runFor k s) := by
  induction k generalizing s with
  | zero => rfl
  | succ k ih =>
    rcases Bool.eq_false_or_eq_true s.halted with hs | hs
    · rw [runFor_of_halted hs]
      exact core_run_of_halted hs (k + 1)
    · rw [runFor_succ_of_running hs]
      exact (core_run_succ (step_stepRequest s) k).trans (ih _)

theorem core_run_halts {n : Nat} {s : State} (h : 2048 ≤ s.pc.toNat + n) :
    ∃ t, Sys2Proof.core.run (n + 1) s = .next t ∧ State.halted t = true :=
  ⟨_, core_run_eq_runFor (n + 1) s, halted_runFor_of_bound h⟩

end Sys2Proof.Machine

open Sys2Proof Sys2Proof.Machine

/-- Settles O44: power-on has the memory of reset, and every other operation keeps the canonical form. -/
theorem hostOperationsKeepMemoryCanonical : Obligations.HostOperationsKeepMemoryCanonical := by
  intro op s hs
  by_cases hop : op = .powerOn
  · subst hop; exact Memory.wf_nil
  · exact hostKeeps_inv.apply hop s hs

/-- Settles O46: a step in HALTED is the identity, and no operation but power-on leaves HALTED. -/
theorem haltedIsTerminal : Obligations.HaltedIsTerminal := fun s hs =>
  ⟨step_of_halted hs, fun _ hop => hostKeeps_halted.apply hop s hs⟩

/-- Settles O51: a step and every operation but power-on put their events after those of before. -/
theorem diagnosticsAreAppendOnly : Obligations.DiagnosticsAreAppendOnly := fun s =>
  ⟨fun _ h => stream_of_diags (diags_of_step h), fun _ hop => stream_of_diags (hostKeeps_diags.apply hop s)⟩

/-- Settles O47, from the bound on the run loop: one cycle for each word from PC on, and one for the HLT beyond. -/
theorem everyRunHalts : Obligations.EveryRunHalts := fun s =>
  ⟨core_run_halts (Nat.le_add_left 2048 s.pc.toNat), fun h => core_run_halts (by omega), fun h => core_run_halts h⟩

/-- Settles O55, from the words inside and outside the mapping and the frame of a load. -/
theorem loadWritesExactlyItsMapping : Obligations.LoadWritesExactlyItsMapping := by
  intro p s hp
  refine ⟨fun a v h ha => read_load_of_mem hp h ha s, fun a h => read_load_of_not_mem h s, ?halted, fun r => ?register⟩
  case halted => rw [load_frame]
  case register => rw [load_frame, State.readReg_with_mem_diags]

end

