-- ==== Sys2Proof/Proofs/Vectors.lean ====
section
/-! PROOFS. The vector unit (spec/43_vector.md R210 to R218): the loop as a fold over the indices, the words it leaves, its
events, and what it leaves unchanged. -/

namespace Sys2Proof.Machine

/-! ## The loop, element by element -/

theorem vectorLoop_eq_foldl (op : VecOp) (a b n : Nat) (s : State) :
    vectorLoop op a b n 0 s = (List.range n).foldl (fun t i => vectorElement op (a + i) (b + i) t) s := by
  induction n with
  | zero => rfl
  | succ n ih => rw [vectorLoop_succ, ih, Nat.zero_add, List.range_succ, List.foldl_concat]

/-- The memory of the loop so far, and one element more. -/
theorem vectorLoop_succ_mem (op : VecOp) (a b n : Nat) (s : State) :
    (vectorLoop op a b (n + 1) 0 s).mem =
      (vectorLoop op a b n 0 s).mem.write (a + n)
        (op.onWords ((vectorLoop op a b n 0 s).mem.read (a + n)) ((vectorLoop op a b n 0 s).mem.read (b + n))) := by
  rw [vectorLoop_succ, Nat.zero_add, vectorElement_eq]

/-- Outside the first vector every word stays. -/
theorem vectorLoop_read_of_outside (op : VecOp) {a b n c : Nat} (s : State) (h : c < a ∨ a + n ≤ c) :
    (vectorLoop op a b n 0 s).mem.read c = s.mem.read c := by
  induction n with
  | zero => rfl
  | succ n ih => rw [vectorLoop_succ_mem, Memory.read_write_ne _ (by omega), ih (by omega)]

/-- Outside the first vector every byte stays (R36). -/
theorem vectorLoop_byteAt_of_outside (op : VecOp) {a b n c : Nat} (s : State) (h : ¬(a ≤ c / 2 ∧ c / 2 < a + n)) :
    (vectorLoop op a b n 0 s).mem.byteAt c = s.mem.byteAt c := by
  induction n with
  | zero => rfl
  | succ n ih => rw [vectorLoop_succ_mem, Memory.byteAt_write_ne _ _ _ (by omega), ih (by omega)]

/-- Unless the second vector starts below the first and reaches into it, the element that an iteration reads there has
not been written yet, and each word of the first vector is the result of the two old ones (R216). -/
theorem vectorLoop_read_elementwise (op : VecOp) {a b n i : Nat} (s : State) (h : ¬(b < a ∧ a < b + n)) (hi : i < n)
    (ha : a + i < 2048) :
    (vectorLoop op a b n 0 s).mem.read (a + i) = op.onWords (s.mem.read (a + i)) (s.mem.read (b + i)) := by
  induction n with
  | zero => omega
  | succ n ih =>
    rw [vectorLoop_succ_mem]
    by_cases hin : i = n
    · subst hin
      rw [Memory.read_write_same _ ha, vectorLoop_read_of_outside op s (by omega),
        vectorLoop_read_of_outside op s (by omega)]
    · rw [Memory.read_write_ne _ (by omega), ih (by omega) (by omega)]

/-- One word below the first vector: each iteration adds the sum that the last one stored (R216 (b)). -/
theorem vectorLoop_read_runningSum {b n i : Nat} (s : State) (hi : i < n) (hn : b + 1 + n ≤ 2048) :
    (vectorLoop .add (b + 1) b n 0 s).mem.read (b + 1 + i) =
      s.mem.read b + ((List.range (i + 1)).map fun j => s.mem.read (b + 1 + j)).sum := by
  induction n generalizing i with
  | zero => omega
  | succ n ih =>
    rw [vectorLoop_succ_mem]
    by_cases hin : i = n
    · subst hin
      have hlast : (vectorLoop .add (b + 1) b i 0 s).mem.read (b + i) =
          s.mem.read b + ((List.range i).map fun j => s.mem.read (b + 1 + j)).sum := by
        cases i with
        | zero => exact (BitVec.add_zero _).symm
        | succ i =>
          have hprev : b + (i + 1) = b + 1 + i := by omega
          rw [hprev]
          exact ih (Nat.lt_succ_self i) (by omega)
      rw [Memory.read_write_same _ (by omega), vectorLoop_read_of_outside .add s (by omega), hlast, List.range_succ,
        List.map_append, List.sum_append, VecOp.onWords]
      simp only [List.map_singleton, List.sum_singleton]
      rw [BitVec.add_comm, BitVec.add_assoc]
    · rw [Memory.read_write_ne _ (by omega), ih (by omega) (by omega)]

/-- Inside memory no access of the loop has an event (R215). -/
theorem vectorLoop_diags_of_inside (op : VecOp) {a b n : Nat} (s : State) (ha : a + n ≤ 2048) (hb : b + n ≤ 2048) :
    (vectorLoop op a b n 0 s).diags = s.diags := by
  induction n with
  | zero => rfl
  | succ n ih =>
    rw [vectorLoop_succ, Nat.zero_add, vectorElement_eq, writeEvents_of_lt (by omega), readEvents_of_lt (by omega),
      readEvents_of_lt (by omega)]
    exact ih (by omega) (by omega)

/-! ## The whole operation and the two instructions -/

theorem vectorOp_diags_of_inside (op : VecOp) {n p : Nat} (s : State) (hp : p + 1 < 2048)
    (ha : (s.mem.read p).toNat + n ≤ 2048) (hb : (s.mem.read (p + 1)).toNat + n ≤ 2048) :
    (vectorOp op n p s).diags = s.diags := by
  by_cases hn : n = 0
  · subst hn; rfl
  · rw [vectorOp_pos op hn, vectorLoop_diags_of_inside op _ ha hb, readEvents_of_lt hp,
      readEvents_of_lt (Nat.lt_of_succ_lt hp)]
    rfl

/-- The memory after a vector instruction is that of the loop from the state before it. -/
theorem exec_vector_mem {op : VecOp} {r : Fin 4} (h : r.val < 2) {m : MemOperand} {s t : State}
    (ht : exec (op.instr r m) s = .next t) :
    t.mem = (vectorLoop op (s.mem.read (s.ea m)).toNat (s.mem.read (s.ea m + 1)).toNat s.fr[r.val].toNat 0 s).mem := by
  cases ht.symm.trans (exec_vector op h m s)
  rw [vectorOp_mem]
  exact vectorLoop_mem_congr op _ _ _ 0 rfl

/-- The two instructions outside the excluded overlap, element by element. -/
theorem exec_vector_word_elementwise {op : VecOp} {r : Fin 4} (h : r.val < 2) {m : MemOperand} {s t : State}
    (ht : exec (op.instr r m) s = .next t) {i : Nat} (hi : i < s.fr[r.val].toNat)
    (hoverlap : ¬((s.mem.read (s.ea m + 1)).toNat < (s.mem.read (s.ea m)).toNat ∧
      (s.mem.read (s.ea m)).toNat < (s.mem.read (s.ea m + 1)).toNat + s.fr[r.val].toNat))
    (ha : (s.mem.read (s.ea m)).toNat + i < 2048) :
    t.mem.word ((s.mem.read (s.ea m)).toNat + i) =
      op.onWords (s.mem.word ((s.mem.read (s.ea m)).toNat + i)) (s.mem.read ((s.mem.read (s.ea m + 1)).toNat + i)) := by
  rw [exec_vector_mem h ht, ← Memory.read_of_lt _ ha, ← s.mem.read_of_lt ha]
  exact vectorLoop_read_elementwise op s hoverlap hi ha

end Sys2Proof.Machine

open Sys2Proof Sys2Proof.Machine

/-- Settles O26: a vector operation of length 0 is the identity. -/
theorem vectorOfLengthZeroDoesNothing : Obligations.VectorOfLengthZeroDoesNothing := by
  intro r h m s hzero
  have hvector : ∀ op : VecOp, exec (op.instr r m) s = .next { s with diags := s.eaEvents m ++ s.diags } := by
    intro op
    rw [exec_vector op h, hzero]
    exact congrArg Host.Outcome.next (vectorOp_zero op _ _)
  exact ⟨hvector .add, hvector .sub⟩

/-- Settles O27: the loop is a fold over the indices, and the statement writes out one element. -/
theorem vectorRunsItsElementsInOrder : Obligations.VectorRunsItsElementsInOrder := by
  intro r h m s hlength n a b start element
  have hn : n ≠ 0 := fun e => hlength (BitVec.eq_of_toNat_eq e)
  have hvector : ∀ op : VecOp, exec (op.instr r m) s = .next ((List.range n).foldl (element op.onWords) start) := by
    intro op
    rw [exec_vector op h, vectorOp_pos op hn, vectorLoop_eq_foldl]
    simp only [vectorElement_eq]
    rfl
  exact ⟨hvector .add, hvector .sub⟩

/-- Settles O28, from the loop's words outside the excluded overlap. -/
theorem vectorIsElementwiseUnlessItChasesItself : Obligations.VectorIsElementwiseUnlessItChasesItself := by
  intro r h m s n a b hoverlap
  exact ⟨⟨_, exec_vector .add h m s,
      fun i hi => exec_vector_word_elementwise h (exec_vector .add h m s) hi hoverlap⟩,
    ⟨_, exec_vector .sub h m s,
      fun i hi => exec_vector_word_elementwise h (exec_vector .sub h m s) hi hoverlap⟩⟩

/-- Settles O29: inside memory the words of the statement are fail-soft reads, and the loop leaves the running sum. -/
theorem vectorAddOneBelowIsRunningSum : Obligations.VectorAddOneBelowIsRunningSum := by
  intro r h m s n a b hab hn
  refine ⟨_, exec_vector .add h m s, fun i hi => ?_⟩
  have hsum := vectorLoop_read_runningSum s hi (b := b) (by omega)
  have hmem := exec_vector_mem h (exec_vector .add h m s)
  have hwords : ((List.range (i + 1)).map fun j => s.mem.word (a + j)) =
      (List.range (i + 1)).map fun j => s.mem.read (b + 1 + j) := by
    refine List.map_congr_left fun j hj => ?_
    have hj : j < i + 1 := List.mem_range.mp hj
    rw [hab, s.mem.read_of_lt (by omega)]
  rw [hwords, hmem, ← s.mem.read_of_lt (by omega), ← Memory.read_of_lt _ (by omega), ← hsum, hab]

/-- Settles O30: no access of the pointers or of the loop is out of range. -/
theorem vectorInMemoryRaisesNothing : Obligations.VectorInMemoryRaisesNothing := by
  intro r h m s t hp ha hb i hi ht
  obtain ⟨op, rfl⟩ := mem_vector_instrs_iff.mp hi
  cases ht.symm.trans (exec_vector op h m s)
  exact vectorOp_diags_of_inside op _ hp ha hb

end

