-- ==== Sys2Proof/Proofs/Frames.lean ====
section
/-! PROOFS. The access matrix (spec/10_state.md R36) for the loads and the arithmetic, the stores, and the vector
instructions; and the fetch of a stored word (spec/20_memory.md R65). -/

namespace Sys2Proof

/-! ## The registers an instruction writes, by its row -/

theorem Instr.of_gprWritten {i : Instr} {j : Fin 4} (h : i.gprWritten = some j) :
    (i = .ldr i.r i.mem ∧ j = i.r) ∨ (i = .cnvrt i.r i.mem ∧ i.r = 1 ∧ j = i.mem.ix) := by
  cases i with
  | ldr r m => exact .inl ⟨rfl, (Option.some.inj h).symm⟩
  | cnvrt r m =>
    obtain ⟨hr, hj⟩ := by simpa [Instr.gprWritten] using h
    exact .inr ⟨rfl, hr, hj.symm⟩
  | _ => cases h

theorem Instr.of_frWritten {i : Instr} {f : Fin 2} (h : i.frWritten = some f) :
    (i ∈ [Instr.fadd i.r i.mem, .fsub i.r i.mem, .ldfr i.r i.mem] ∧ f.val = i.r.val) ∨
      (i = .cnvrt i.r i.mem ∧ i.r = 0 ∧ f = 0) := by
  cases i with
  | fadd r m | fsub r m | ldfr r m =>
    obtain ⟨hr, rfl⟩ := by simpa [Instr.frWritten, Machine.frSelect] using h
    exact .inl ⟨by simp [Instr.r, Instr.mem], rfl⟩
  | cnvrt r m =>
    obtain ⟨hr, hf⟩ := by simpa [Instr.frWritten] using h
    exact .inr ⟨rfl, hr, hf.symm⟩
  | _ => cases h

end Sys2Proof

namespace Sys2Proof.Machine

theorem haltsOn_of_wellFormed {i : Instr} (hhlt : i ≠ .hlt i.r i.mem) (h : i.wellFormed = true) :
    haltsOn (.instr i) = false := by
  cases i with
  | hlt r m => exact absurd rfl hhlt
  | _ => simp [haltsOn, h]

/-! ## Consequences of an effect -/

section Effect
variable {i : Instr} {s t : State} (h : ExecEffect i s t)
include h

theorem ExecEffect.ixr_eq : t.ixr = s.ixr := by rw [h.frame]

/-- No meaning writes a register of the fetch step. -/
theorem ExecEffect.fetch_registers : t.pc = s.pc ∧ t.mar = s.mar ∧ t.mbr = s.mbr ∧ t.ir = s.ir := by
  rw [h.frame]
  exact ⟨rfl, rfl, rfl, rfl⟩

theorem ExecEffect.gpr_eq (hi : i.gprWritten = none) : t.gpr = s.gpr :=
  Vector.ext fun j hj => h.gpr ⟨j, hj⟩ (by simp [hi])

theorem ExecEffect.fr_eq (hi : i.frWritten = none) : t.fr = s.fr :=
  Vector.ext fun f hf => h.fr ⟨f, hf⟩ (by simp [hi])

theorem ExecEffect.halted_eq (hi : haltsOn (.instr i) = false) : t.halted = s.halted := by
  rw [h.halted, hi, Bool.or_false]

end Effect

theorem mem_of_not_wellFormed {i : Instr} {s t : State} (h : exec i s = .next t) (hwf : i.wellFormed = false) :
    t.mem = s.mem := by
  cases h.symm.trans (exec_of_not_wellFormed hwf s)
  rfl

/-! ## Stores -/

/-- The memory after STR or STFR: that of one write at `ea`, or with a reserved operand that of before. -/
theorem exec_store_mem {r : Fin 4} {m : MemOperand} {i : Instr} (hi : i ∈ [Instr.str r m, .stfr r m]) {s t : State}
    (h : exec i s = .next t) : t.mem = s.mem ∨ ∃ w, t.mem = s.mem.write (s.ea m) w := by
  cases hwf : i.wellFormed with
  | false => exact .inl (mem_of_not_wellFormed h hwf)
  | true =>
    obtain rfl | rfl := by simpa using hi
    · cases h.symm.trans (exec_str r m s)
      exact .inr ⟨_, rfl⟩
    · cases h.symm.trans (exec_stfr (of_decide_eq_true hwf) m s)
      exact .inr ⟨_, rfl⟩

/-! ## The fetch of any address (R65) -/

theorem fetch_ir_at {pc : AddrReg} (h : pc.toNat < 2048) (t : State) :
    (fetch { t with pc := pc }).ir = t.mem.word pc.toNat := by
  rw [fetch_ir, Memory.read_of_lt _ h]

theorem fetch_ir_of_write {t : State} {m : Memory} {a : Nat} {w : Word} (ht : t.mem = m.write a w) {pc : AddrReg}
    (h : pc.toNat < 2048) (ha : pc.toNat = a) : (fetch { t with pc := pc }).ir = w := by
  subst ha
  rw [fetch_ir_at h, ht, Memory.word_write_same _ h]

end Sys2Proof.Machine

open Sys2Proof Sys2Proof.Machine

/-- Settles O31: none of the six stores, and the registers each writes are those that the statement excepts. -/
theorem loadAndArithmeticFrame : Obligations.LoadAndArithmeticFrame := by
  intro r m s t i hi h
  have heffect : ExecEffect i s t := execEffect_of_exec h
  obtain ⟨hstores, rfl, rfl⟩ : i.stores = false ∧ i.r = r ∧ i.mem = m := by
    obtain rfl | rfl | rfl | rfl | rfl | rfl := by simpa using hi
    all_goals exact ⟨rfl, rfl, rfl⟩
  obtain ⟨hpc, hmar, hmbr, hir⟩ := heffect.fetch_registers
  refine ⟨fun b => by rw [heffect.mem hstores], heffect.ixr_eq, hpc, hmar, hmbr, hir, ?gpr, ?fr, ?halted⟩
  case gpr => exact fun j hldr hcnvrt => heffect.gpr j fun hj => (Instr.of_gprWritten hj).elim hldr hcnvrt
  case fr => exact fun f hselected hcnvrt => heffect.fr f fun hf => (Instr.of_frWritten hf).elim hselected hcnvrt
  case halted => exact fun hhlt hwf => heffect.halted_eq (haltsOn_of_wellFormed hhlt hwf)

/-- Settles O32: neither of the two writes a register, and memory changes by at most one write at `ea`. -/
theorem storeFrame : Obligations.StoreFrame := by
  intro r m s t i hi h
  have heffect : ExecEffect i s t := execEffect_of_exec h
  obtain ⟨hhlt, hgpr, hfr⟩ : i ≠ .hlt i.r i.mem ∧ i.gprWritten = none ∧ i.frWritten = none := by
    obtain rfl | rfl := by simpa using hi
    all_goals exact ⟨nofun, rfl, rfl⟩
  obtain ⟨hpc, hmar, hmbr, hir⟩ := heffect.fetch_registers
  refine ⟨?bytes, ?outOfRange, mem_of_not_wellFormed h, heffect.gpr_eq hgpr, heffect.fr_eq hfr, heffect.ixr_eq,
    hpc, hmar, hmbr, hir, fun hwf => heffect.halted_eq (haltsOn_of_wellFormed hhlt hwf)⟩
  case bytes =>
    intro b hlo hhi
    rcases exec_store_mem hi h with hmem | ⟨w, hmem⟩
    · rw [hmem]
    · rw [hmem, Memory.byteAt_write_of_ne _ _ _ hlo hhi]
  case outOfRange =>
    intro hea
    rcases exec_store_mem hi h with hmem | ⟨w, hmem⟩
    · exact hmem
    · rw [hmem, Memory.write_out_of_range _ hea]

/-- Settles O33: neither of the two writes a register; memory changes by the loop's writes, or with a reserved operand not
at all. -/
theorem vectorFrame : Obligations.VectorFrame := by
  intro r m s t i hi h
  have heffect : ExecEffect i s t := execEffect_of_exec h
  obtain ⟨hwf, hhlt, hgpr, hfr⟩ : i.wellFormed = decide (r.val < 2) ∧ i ≠ .hlt i.r i.mem ∧ i.gprWritten = none ∧
      i.frWritten = none := by
    obtain rfl | rfl := by simpa using hi
    all_goals exact ⟨rfl, nofun, rfl, rfl⟩
  obtain ⟨hpc, hmar, hmbr, hir⟩ := heffect.fetch_registers
  refine ⟨fun hr => ⟨?bytes, ?running⟩, fun hr => ?reserved, heffect.gpr_eq hgpr, heffect.fr_eq hfr, heffect.ixr_eq,
    hpc, hmar, hmbr, hir⟩
  case bytes =>
    intro b hb
    obtain ⟨op, rfl⟩ := mem_vector_instrs_iff.mp hi
    rw [exec_vector_mem hr h, vectorLoop_byteAt_of_outside op s hb]
  case running => exact heffect.halted_eq (haltsOn_of_wellFormed hhlt (hwf.trans (decide_eq_true hr)))
  case reserved =>
    have hreserved : i.wellFormed = false := hwf.trans (decide_eq_false (Nat.not_lt.mpr hr))
    exact ⟨mem_of_not_wellFormed h hreserved,
      by rw [heffect.halted, haltsOn_of_not_wellFormed hreserved, Bool.or_true]⟩

/-- Settles O54: a fetch in memory gets the word there, which at `ea` is the one stored, and in the first vector the
element's result. -/
theorem storedWordIsTheNextWordFetched : Obligations.StoredWordIsTheNextWordFetched := by
  intro r m s t pc hpc
  refine ⟨fun _ _ _ => fetch_ir_at hpc t, ?str, fun hr => ⟨?stfr, ?vector⟩⟩
  case str =>
    intro h hea
    cases h.symm.trans (exec_str r m s)
    exact fetch_ir_of_write rfl hpc hea
  case stfr =>
    intro h hea
    cases h.symm.trans (exec_stfr hr m s)
    exact fetch_ir_of_write rfl hpc hea
  case vector =>
    intro i hi hoverlap hat
    have helement : ∀ op : VecOp, exec (op.instr r m) s = .next t → (fetch { t with pc := pc }).ir =
        op.onWords (s.mem.word ((s.mem.read (s.ea m)).toNat + i))
          (s.mem.read ((s.mem.read (s.ea m + 1)).toNat + i)) := by
      intro op h
      rw [fetch_ir_at hpc, hat]
      exact exec_vector_word_elementwise hr h hi hoverlap (hat ▸ hpc)
    exact ⟨helement .add, helement .sub⟩

end

