-- ==== Sys2Proof/Proofs/Assembler.lean ====
section
/-! PROOFS. The assembler's view of the encoding (spec/30_encoding.md R95 to R103): the word of an instruction line, the
words put at addresses, and octal numbers. -/

namespace Sys2Proof.Machine

/-! ## Instruction lines (R95, R96) -/

@[simp] theorem fieldOf_none (tbl : Symbols) (n : Nat) : fieldOf tbl n none = .ok 0 := rfl

/-- An operand that fits its field is its value. -/
theorem fieldOf_of_fits {tbl : Symbols} {n : Nat} {t : Text} {k : Fin n} (h : operandValue tbl t = k.val) :
    fieldOf tbl n (some t) = .ok k.val := by
  have hk : k.val < n := k.isLt
  simp [fieldOf, h, hk]

/-- The indirection that the last place of an instruction line asks for. -/
def indirectOf (operands : List Text) : Bool := operands[3]? == some ['1'] || operands[3]? == some ['I']

/-- The word of an instruction line whose operands fit. -/
theorem assembleInstr_of_fields {tbl : Symbols} {o : Op} (ho : o ≠ .hlt) {operands : List Text} {r ix : Fin 4}
    {a : Fin 32} (hr : fieldOf tbl 4 operands[0]? = .ok r.val) (hix : fieldOf tbl 4 operands[1]? = .ok ix.val)
    (ha : fieldOf tbl 32 operands[2]? = .ok a.val) :
    assembleInstr tbl o operands = .ok (encode (o.instr r ⟨ix, indirectOf operands, a⟩)) := by
  rw [encode_instr]
  cases o with
  | hlt => exact absurd rfl ho
  | _ => simp [assembleInstr, hr, hix, ha, indirectOf]

/-! ## Words put at addresses (R100) -/

theorem lookup_cons_eq_ite {α : Type} (k b : Nat) (x : α) (l : List (Nat × α)) :
    ((k, x) :: l).lookup b = if b = k then some x else l.lookup b := by
  by_cases h : b = k
  · simp [h]
  · have hbeq : (b == k) = false := beq_false_of_ne h
    simp [List.lookup, hbeq, h]

theorem lookup_putAt {α : Type} (l : List (Nat × α)) (a b : Nat) (v : α) :
    (putAt a v l).lookup b = if b = a then some v else l.lookup b := by
  induction l with
  | nil => exact lookup_cons_eq_ite a b v []
  | cons c l ih =>
    obtain ⟨k, x⟩ := c
    unfold putAt
    split
    · exact lookup_cons_eq_ite a b v _
    · split
      · next hak =>
        subst hak
        rw [lookup_cons_eq_ite, lookup_cons_eq_ite]
        split <;> rfl
      · next hak =>
        rw [lookup_cons_eq_ite, ih, lookup_cons_eq_ite]
        by_cases hbk : b = k
        · have hba : ¬b = a := fun h => hak (h.symm.trans hbk)
          rw [if_pos hbk, if_neg hba, if_pos hbk]
        · rw [if_neg hbk, if_neg hbk]

/-! ## Octal numbers (R103) -/

theorem length_octalDigits (k n : Nat) : (octalDigits k n).length = k := by
  induction k generalizing n with
  | zero => rfl
  | succ k ih => rw [octalDigits, List.length_append, ih, List.length_singleton]

theorem digitValue_octal {d : Nat} (h : d < 8) : digitValue (Char.ofNat ('0'.toNat + d)) = some d := by
  revert d
  decide

theorem digitsValue_append (base acc : Nat) (t u : Text) :
    digitsValue base acc (t ++ u) = (digitsValue base acc t).bind fun acc' => digitsValue base acc' u := by
  induction t generalizing acc with
  | nil => rfl
  | cons c t ih =>
    simp only [List.cons_append, digitsValue]
    cases digitValue c with
    | none => rfl
    | some d => by_cases hd : d < base <;> simp [hd, ih]

/-- The last `k` octal digits denote the number modulo `8 ^ k`. -/
theorem digitsValue_octalDigits (k acc n : Nat) :
    digitsValue 8 acc (octalDigits k n) = some (acc * 8 ^ k + n % 8 ^ k) := by
  induction k generalizing n with
  | zero => simp [octalDigits, digitsValue, Nat.mod_one]
  | succ k ih =>
    have hdigit : n % 8 < 8 := Nat.mod_lt n (by decide)
    rw [octalDigits, digitsValue_append, ih]
    simp only [Option.bind_some, digitsValue, digitValue_octal hdigit, hdigit, if_true]
    rw [pow_succ', Nat.mod_mul]
    congr 1
    ring

end Sys2Proof.Machine

open Sys2Proof Sys2Proof.Machine

/-- Settles O56: an absent operand is the field 0, one that fits is its value, and the last place is read as it stands. -/
theorem assembledLineIsTheEncodedInstruction : Obligations.AssembledLineIsTheEncodedInstruction := by
  refine ⟨fun _ _ => rfl, ?_⟩
  intro tbl o r m tr tx ta ti ho hr hx ha
  have hr : fieldOf tbl 4 (some tr) = .ok r.val := fieldOf_of_fits hr
  have hx : fieldOf tbl 4 (some tx) = .ok m.ix.val := fieldOf_of_fits hx
  have ha : fieldOf tbl 32 (some ta) = .ok m.address.val := fieldOf_of_fits ha
  have hzero : ∀ n [NeZero n], fieldOf tbl n none = .ok (0 : Fin n).val := fun n _ => fieldOf_none tbl n
  refine ⟨assembleInstr_of_fields ho (hzero 4) (hzero 4) (hzero 32), assembleInstr_of_fields ho hr (hzero 4) (hzero 32),
    assembleInstr_of_fields ho hr hx (hzero 32), assembleInstr_of_fields ho hr hx ha, fun hind => ?indirect⟩
  case indirect =>
    have hlast : indirectOf [tr, tx, ta, ti] = m.indirect := by
      rw [Bool.eq_iff_iff, hind]
      simp [indirectOf]
    rw [assembleInstr_of_fields ho hr hx ha, hlast]

/-- Settles O57, from the lookup after a put, which needs no order of the list. -/
theorem lastEmittedWordWins : Obligations.LastEmittedWordWins := fun l a b v => lookup_putAt l a b v

/-- Settles O58: below `8 ^ 6` the last six octal digits denote the number itself. -/
theorem sixOctalDigitsDenoteTheNumber : Obligations.SixOctalDigitsDenoteTheNumber := by
  intro n hn
  refine ⟨length_octalDigits 6 n, ?_⟩
  rw [octal6, digitsValue_octalDigits, Nat.mod_eq_of_lt hn, Nat.zero_mul, Nat.zero_add]

end

