-- ==== Sys2Proof/Proofs/FloatEncoder.lean ====
section
/-! PROOFS. The encoder (spec/42_floating_point.md R177 to R179): the fields of a packed word, the exponent and the
mantissa from the number of bits, the value of an encoded word, and the rational closed form. -/

namespace Sys2Proof.Machine

/-! ## The fields of a packed word (R170, R171) -/

section Pack
variable (neg : Bool) (e : Int) {m : Nat} (hm : m ≤ 255)
include hm

theorem toNat_fpPack : (fpPack neg e m).toNat = neg.toNat * 32768 + (e % 128).toNat * 256 + m := by
  have hneg : neg.toNat ≤ 1 := Bool.toNat_le neg
  rw [fpPack, BitVec.toNat_ofNat]
  exact Nat.mod_eq_of_lt (by omega)

theorem fpSign_fpPack : fpSign (fpPack neg e m) = neg := by
  rw [fpSign_eq, toNat_fpPack neg e hm]
  cases neg
  · exact decide_eq_false (by rw [Bool.toNat_false]; omega)
  · exact decide_eq_true (by rw [Bool.toNat_true]; omega)

theorem fpExpField_fpPack : fpExpField (fpPack neg e m) = (e % 128).toNat := by
  rw [fpExpField, toNat_fpPack neg e hm]
  omega

theorem fpMantissa_fpPack : fpMantissa (fpPack neg e m) = m := by
  rw [fpMantissa, toNat_fpPack neg e hm]
  omega

variable {e}

theorem fpExponent_fpPack (hlo : -64 ≤ e) (hhi : e ≤ 63) : fpExponent (fpPack neg e m) = e := by
  rw [fpExponent, fpExpField_fpPack neg e hm]
  split <;> omega

theorem fpScaled_fpPack (hlo : -64 ≤ e) (hhi : e ≤ 63) :
    fpScaled (fpPack neg e m) = if neg then -((m : Int) * 2 ^ (e + 64).toNat) else (m : Int) * 2 ^ (e + 64).toNat := by
  simp only [fpScaled, fpSign_fpPack neg e hm, fpMantissa_fpPack neg e hm, fpExponent_fpPack neg hm hlo hhi]

end Pack

/-! ## The exponent and the mantissa of a magnitude (R178) -/

theorem fpEncExponent_bounds (a : Nat) : -63 ≤ fpEncExponent a ∧ fpEncExponent a ≤ 63 := by
  unfold fpEncExponent Config.fpExpMinEnc Config.fpExpMaxEnc
  omega

theorem fpEncMantissa_le (a : Nat) (e : Int) : fpEncMantissa a e ≤ 255 := Nat.min_le_left _ _

/-- A magnitude of `l + 1` bits: the exponent is the number of bits in the scale of R174, clamped. -/
theorem fpEncExponent_of_bits {a l : Nat} (hlo : 2 ^ l ≤ a) (hhi : a < 2 ^ (l + 1)) :
    fpEncExponent a = max (-63) (min 63 ((l : Int) - 71)) := by
  have ha : a ≠ 0 := by
    have hpos : 0 < 2 ^ l := by positivity
    omega
  rw [fpEncExponent, (Nat.log2_eq_iff ha).mpr ⟨hlo, hhi⟩]
  unfold Config.fpExpMinEnc Config.fpExpMaxEnc
  omega

/-- The rounding by its unit `2 ^ (k + 1)`, where the exponent is `k - 63`. -/
theorem fpEncMantissa_eq {a k : Nat} {e : Int} (he : e = (k : Int) - 63) :
    fpEncMantissa a e = min 255 ((a + 2 ^ k) / 2 ^ (k + 1)) := by
  have h63 : (e + 63).toNat = k := by omega
  have h64 : (e + 64).toNat = k + 1 := by omega
  rw [fpEncMantissa, h63, h64]

/-! ## The encoded word and its value -/

theorem fpEncode_zero : fpEncode 0 = 0 := rfl

theorem fpEncode_of_ne {n : Int} (h : n ≠ 0) :
    fpEncode n = fpPack (n < 0) (fpEncExponent n.natAbs) (fpEncMantissa n.natAbs (fpEncExponent n.natAbs)) :=
  if_neg h

theorem toNat_fpEncode {n : Int} (h : n ≠ 0) :
    (fpEncode n).toNat = (decide (n < 0)).toNat * 32768 + (fpEncExponent n.natAbs % 128).toNat * 256 +
      fpEncMantissa n.natAbs (fpEncExponent n.natAbs) := by
  rw [fpEncode_of_ne h, toNat_fpPack _ _ (fpEncMantissa_le _ _)]

/-- The magnitude of the encoded value, in the scale of R174. -/
def fpEncMagnitude (a : Nat) : Nat := fpEncMantissa a (fpEncExponent a) * 2 ^ (fpEncExponent a + 64).toNat

/-- Encoding keeps the sign and rounds the magnitude. -/
theorem fpScaled_fpEncode (n : Int) : fpScaled (fpEncode n) = n.sign * fpEncMagnitude n.natAbs := by
  by_cases h : n = 0
  · subst h; rfl
  · obtain ⟨hlo, hhi⟩ := fpEncExponent_bounds n.natAbs
    rw [fpEncode_of_ne h, fpScaled_fpPack _ (fpEncMantissa_le _ _) (by omega) hhi, fpEncMagnitude]
    push_cast
    by_cases hneg : n < 0
    · rw [Int.sign_eq_neg_one_of_neg hneg, if_pos (decide_eq_true hneg)]
      ring
    · rw [Int.sign_eq_one_of_pos (by omega), if_neg (by simpa using hneg)]
      ring

/-- Inside the exponent range, with `k + 9` bits, the unit of the last place is `2 ^ (k + 1)`. -/
theorem fpEncMagnitude_of_bits {a k : Nat} (hk : k ≤ 126) (hlo : 2 ^ (k + 8) ≤ a) (hhi : a < 2 ^ (k + 9)) :
    fpEncMagnitude a = min 255 ((a + 2 ^ k) / 2 ^ (k + 1)) * 2 ^ (k + 1) := by
  have he : fpEncExponent a = (k : Int) - 63 := by
    rw [fpEncExponent_of_bits hlo hhi]
    omega
  have hunit : (fpEncExponent a + 64).toNat = k + 1 := by omega
  rw [fpEncMagnitude, fpEncMantissa_eq he, hunit]

theorem natAbs_fpScaled_fpEncode (n : Int) : (fpScaled (fpEncode n)).natAbs = fpEncMagnitude n.natAbs := by
  by_cases h : n = 0
  · subst h; rfl
  · rw [fpScaled_fpEncode, Int.natAbs_mul, Int.natAbs_sign_of_ne_zero h, Nat.one_mul, Int.natAbs_natCast]

/-- The error of the encoded value is that of its magnitude. -/
theorem natAbs_fpScaled_fpEncode_sub (n : Int) :
    (fpScaled (fpEncode n) - n).natAbs = ((fpEncMagnitude n.natAbs : Int) - n.natAbs).natAbs := by
  by_cases h : n = 0
  · subst h; rfl
  · have herr : fpScaled (fpEncode n) - n = n.sign * ((fpEncMagnitude n.natAbs : Int) - n.natAbs) := by
      rw [fpScaled_fpEncode, mul_sub, Int.sign_mul_natAbs]
    rw [herr, Int.natAbs_mul, Int.natAbs_sign_of_ne_zero h, Nat.one_mul]

/-! ## Rounding to a unit `2 * p` -/

/-- Rounding to the nearest multiple is off by at most half a unit. -/
theorem natAbs_round_sub_le {a p : Nat} (hp : 0 < p) :
    2 * (((a + p) / (2 * p) * (2 * p) : Nat) - (a : Int)).natAbs ≤ 2 * p := by
  have hdiv := Nat.div_add_mod (a + p) (2 * p)
  have hmod := Nat.mod_lt (a + p) (show 0 < 2 * p by omega)
  rw [Nat.mul_comm (2 * p)] at hdiv
  omega

/-! ## Saturation and the reserved words (R179) -/

/-- Above the lower bound of the clamp the exponent is at most the number of bits in the scale of R174. -/
theorem two_pow_le_of_fpEncExponent {a k : Nat} (he : fpEncExponent a = (k : Int) - 63) (hk : k ≠ 0) :
    2 ^ (k + 8) ≤ a := by
  have hlog : k + 8 ≤ a.log2 := by
    unfold fpEncExponent Config.fpExpMinEnc Config.fpExpMaxEnc at he
    omega
  have ha : a ≠ 0 := by
    rintro rfl
    rw [Nat.log2_zero] at hlog
    omega
  exact (Nat.le_log2 ha).mp hlog

/-- There the mantissa has its top bit: normalisation is complete. -/
theorem fpEncMantissa_ge {a : Nat} (he : fpEncExponent a ≠ -63) : 128 ≤ fpEncMantissa a (fpEncExponent a) := by
  obtain ⟨k, hk⟩ : ∃ k : Nat, fpEncExponent a = (k : Int) - 63 :=
    ⟨(fpEncExponent a + 63).toNat, by have := fpEncExponent_bounds a; omega⟩
  have ha : 2 ^ (k + 8) ≤ a := two_pow_le_of_fpEncExponent hk (by omega)
  rw [fpEncMantissa_eq hk, Nat.le_min]
  refine ⟨by decide, (Nat.le_div_iff_mul_le (by positivity)).mpr ?_⟩
  calc 128 * 2 ^ (k + 1) = 2 ^ (k + 8) := by ring
    _ ≤ a + 2 ^ k := le_add_right ha

/-- From `2 ^ 135` on the exponent and the mantissa are the largest. -/
theorem fpEncode_of_overflow {n : Int} (h : 2 ^ 135 ≤ n.natAbs) : fpEncode n = fpPack (n < 0) 63 255 := by
  have hn : n ≠ 0 := by rintro rfl; simp at h
  have hlog : 135 ≤ n.natAbs.log2 := (Nat.le_log2 (Int.natAbs_ne_zero.mpr hn)).mpr h
  have he : fpEncExponent n.natAbs = 63 := by
    unfold fpEncExponent Config.fpExpMinEnc Config.fpExpMaxEnc
    omega
  have hm : fpEncMantissa n.natAbs 63 = 255 := by
    rw [fpEncMantissa_eq (k := 126) (e := 63) rfl]
    omega
  rw [fpEncode_of_ne hn, he, hm]

/-! ## The rational closed form (R177) -/

theorem abs_div_scale (n : Int) : |(n : ℚ) / 2 ^ 72| = (n.natAbs : ℚ) / 2 ^ 72 := by
  rw [abs_div, Nat.cast_natAbs, Int.cast_abs, abs_of_pos (by positivity : (0 : ℚ) < 2 ^ 72)]

/-- The bounds of the closed form say how many bits the magnitude has. -/
theorem bits_of_rational_bounds {a : Nat} {E : Int} (hlo : (2 : ℚ) ^ (E - 1) ≤ (a : ℚ) / 2 ^ 72)
    (hhi : (a : ℚ) / 2 ^ 72 < (2 : ℚ) ^ E) : ∃ l : Nat, E = (l : Int) - 71 ∧ 2 ^ l ≤ a ∧ a < 2 ^ (l + 1) := by
  have hscale : ∀ i : Int, (2 : ℚ) ^ (i + 72) = (2 : ℚ) ^ i * 2 ^ 72 := fun i => zpow_add₀ two_ne_zero i 72
  have hlo : (2 : ℚ) ^ (E - 1 + 72) ≤ a := by
    rw [hscale]
    exact (le_div_iff₀ (by positivity)).mp hlo
  have hhi : (a : ℚ) < (2 : ℚ) ^ (E + 72) := by
    rw [hscale]
    exact (div_lt_iff₀ (by positivity)).mp hhi
  have hone : (1 : ℚ) ≤ a := by
    have hpos : (0 : ℚ) < a := lt_of_lt_of_le (by positivity) hlo
    exact_mod_cast hpos
  have hE : 0 < E + 72 := by
    by_contra hneg
    exact absurd (hone.trans_lt hhi) (not_lt.mpr (zpow_le_one_of_nonpos₀ one_le_two (by omega)))
  obtain ⟨l, hl⟩ := Int.eq_ofNat_of_zero_le (show 0 ≤ E + 71 by omega)
  refine ⟨l, by omega, ?_, ?_⟩
  · rw [show E - 1 + 72 = (l : Int) by omega, zpow_natCast] at hlo
    exact_mod_cast hlo
  · rw [show E + 72 = ((l + 1 : Nat) : Int) by omega, zpow_natCast] at hhi
    exact_mod_cast hhi

/-- The rounded fraction of the closed form is the integer one. -/
theorem floor_mantissa (a k : Nat) :
    ⌊256 * ((a : ℚ) / 2 ^ 72) / (2 : ℚ) ^ ((k : Int) - 63) + 1 / 2⌋ = ((a + 2 ^ k) / 2 ^ (k + 1) : Nat) := by
  have hquot : 256 * ((a : ℚ) / 2 ^ 72) / (2 : ℚ) ^ ((k : Int) - 63) + 1 / 2 =
      ((a + 2 ^ k : Nat) : Int) / ((2 ^ (k + 1) : Nat) : ℚ) := by
    rw [zpow_sub₀ two_ne_zero, zpow_natCast]
    push_cast
    field_simp
    ring
  rw [hquot, Rat.floor_intCast_div_natCast]
  norm_cast

end Sys2Proof.Machine

open Sys2Proof Sys2Proof.Machine

/-- Settles O35: the bounds on the value give the number of bits, hence the exponent; the mantissa is the rounded
fraction. -/
theorem encoderIsItsRationalClosedForm : Obligations.EncoderIsItsRationalClosedForm := by
  refine ⟨fpEncode_zero, ?_⟩
  intro n E hlo hhi e
  rw [abs_div_scale] at hlo hhi ⊢
  obtain ⟨l, hl, hbits⟩ := bits_of_rational_bounds hlo hhi
  have hn : n ≠ 0 := by
    rintro rfl
    exact absurd hbits.1 (by simp)
  have he : fpEncExponent n.natAbs = e := by rw [fpEncExponent_of_bits hbits.1 hbits.2, ← hl]
  obtain ⟨k, hk⟩ : ∃ k : Nat, e = (k : Int) - 63 := ⟨(e + 63).toNat, by omega⟩
  rw [toNat_fpEncode hn, he, fpEncMantissa_eq hk, hk, floor_mantissa]
  have hfield : (((k : Int) - 63) % 128).toNat = ((k : Int) - 63) % 128 := Int.toNat_of_nonneg (by omega)
  by_cases hneg : n < 0 <;> simp [hneg, hfield]

/-- Settles O36: the unit of the last place is `2 ^ (e - 8)`, and the fraction is cut exactly from `511 / 512` of the
range on. -/
theorem encoderErrsByAtMostHalfAUnit : Obligations.EncoderErrsByAtMostHalfAUnit := by
  intro n e he9 he135 hlo hhi
  obtain ⟨k, rfl⟩ : ∃ k, e = k + 9 := ⟨e - 9, by omega⟩
  have hmagnitude : fpEncMagnitude n.natAbs = min 255 ((n.natAbs + 2 ^ k) / 2 ^ (k + 1)) * 2 ^ (k + 1) :=
    fpEncMagnitude_of_bits (by omega) hlo hhi
  have hunit : 2 ^ (k + 9 - 8) = 2 * 2 ^ k := by rw [Nat.add_sub_assoc (by decide), pow_succ']
  have hrange : 2 ^ (k + 9) = 512 * 2 ^ k := by ring
  have hpos : 0 < 2 ^ k := by positivity
  rw [natAbs_fpScaled_fpEncode_sub, natAbs_fpScaled_fpEncode, hmagnitude, hunit, hrange, pow_succ']
  refine ⟨fun hlt => ?rounded, fun hge => ?cut⟩
  case rounded =>
    have hquot : (n.natAbs + 2 ^ k) / (2 * 2 ^ k) ≤ 255 :=
      Nat.le_of_lt_succ ((Nat.div_lt_iff_lt_mul (by omega)).mpr (by omega))
    rw [Nat.min_eq_right hquot]
    exact natAbs_round_sub_le hpos
  case cut =>
    have hquot : 255 ≤ (n.natAbs + 2 ^ k) / (2 * 2 ^ k) := (Nat.le_div_iff_mul_le (by omega)).mpr (by omega)
    rw [Nat.min_eq_left hquot]

/-- Settles O37: the largest word from `2 ^ 135` on, the clamp of the exponent, and a mantissa that is not 0 where the
exponent is. -/
theorem encoderSaturatesAndAvoidsReservedWords : Obligations.EncoderSaturatesAndAvoidsReservedWords := by
  intro n
  refine ⟨fun h => ?positive, fun h => ?negative, ?_⟩
  case positive =>
    have hneg : ¬n < 0 := by omega
    rw [fpEncode_of_overflow (by omega), decide_eq_false hneg]
    rfl
  case negative =>
    have hneg : n < 0 := by omega
    rw [fpEncode_of_overflow (by omega), decide_eq_true hneg]
    rfl
  by_cases hn : n = 0
  · subst hn
    exact ⟨by decide, by decide, by decide⟩
  obtain ⟨hlo, hhi⟩ := fpEncExponent_bounds n.natAbs
  have hm : fpEncMantissa n.natAbs (fpEncExponent n.natAbs) ≤ 255 := fpEncMantissa_le _ _
  refine ⟨?exponent, fun h => ?negativeZero, ?sign⟩
  case exponent =>
    rw [toNat_fpEncode hn]
    omega
  case negativeZero =>
    have htop := fpEncMantissa_ge (a := n.natAbs)
    have hword := (toNat_fpEncode hn).symm.trans (congrArg BitVec.toNat h)
    have hreserved : (0x8000 : Word).toNat = 32768 := rfl
    omega
  case sign =>
    have hsign : fpSign (fpEncode n) = decide (n < 0) := by rw [fpEncode_of_ne hn, fpSign_fpPack _ _ hm]
    rw [← fpSign, hsign, decide_eq_true_iff]

end

