-- ==== Sys2Proof/Proofs/FloatOperations.lean ====
section
/-! PROOFS. The operations of the floating-point unit (spec/42_floating_point.md R180 to R184): the laws of addition and
subtraction, rounding to an integer, and the round trip of an integer. -/

namespace Sys2Proof.Machine

/-! ## Flipping the sign bit -/

theorem toNat_flipSign (w : Word) : (w ^^^ 0x8000).toNat = w.toNat ^^^ 2 ^ 15 := BitVec.toNat_xor w 0x8000

theorem fpSign_flipSign (w : Word) : fpSign (w ^^^ 0x8000) = !fpSign w := by
  have hbit : (0x8000 : Word).msb = true := by decide
  rw [fpSign, BitVec.msb_xor, hbit, Bool.xor_true, fpSign]

theorem fpMantissa_flipSign (w : Word) : fpMantissa (w ^^^ 0x8000) = fpMantissa w := by
  have hmod : (w.toNat ^^^ 2 ^ 15) % 2 ^ 8 = w.toNat % 2 ^ 8 ^^^ 2 ^ 15 % 2 ^ 8 := Nat.xor_mod_two_pow
  rw [fpMantissa, toNat_flipSign]
  exact hmod.trans (Nat.xor_zero _)

theorem fpExpField_flipSign (w : Word) : fpExpField (w ^^^ 0x8000) = fpExpField w := by
  have hdiv : (w.toNat ^^^ 2 ^ 15) / 2 ^ 8 = w.toNat / 2 ^ 8 ^^^ 2 ^ 7 := Nat.xor_div_two_pow
  have hmod : (w.toNat / 2 ^ 8 ^^^ 2 ^ 7) % 2 ^ 7 = w.toNat / 2 ^ 8 % 2 ^ 7 ^^^ 2 ^ 7 % 2 ^ 7 := Nat.xor_mod_two_pow
  rw [fpExpField, toNat_flipSign]
  exact (congrArg (· % 2 ^ 7) hdiv).trans (hmod.trans (Nat.xor_zero _))

theorem fpScaled_flipSign (w : Word) : fpScaled (w ^^^ 0x8000) = -fpScaled w := by
  simp only [fpScaled, fpExponent, fpSign_flipSign, fpMantissa_flipSign, fpExpField_flipSign]
  cases fpSign w <;> simp

/-- A word with mantissa 0 has the value 0 (R172). -/
theorem fpScaled_of_mantissa_zero {w : Word} (h : w.toNat % 256 = 0) : fpScaled w = 0 := by
  rw [fpScaled_eq_sign_mul, fpMantissa, h]
  simp

/-! ## Rounding to an integer (R183) -/

/-- Saturation to the signed 16-bit range. -/
def clamp16 (x : Int) : Int := max (-32768) (min 32767 x)

theorem toInt_mask16_clamp16 (x : Int) : (mask16 (clamp16 x)).toInt = clamp16 x := by
  unfold clamp16
  exact BitVec.toInt_ofInt_eq_self (by decide) (by omega) (by omega)

theorem toInt_fpToInt (w : Word) : (fpToInt w).toInt = clamp16 ((fpScaled w + 2 ^ 71) / 2 ^ 72) :=
  toInt_mask16_clamp16 _

theorem floor_add_half (n : Int) : ⌊(n : ℚ) / 2 ^ 72 + 1 / 2⌋ = (n + 2 ^ 71) / 2 ^ 72 := by
  have hquot : (n : ℚ) / 2 ^ 72 + 1 / 2 = ((n + 2 ^ 71 : Int) : ℚ) / ((2 ^ 72 : Nat) : ℚ) := by
    push_cast
    ring
  rw [hquot, Rat.floor_intCast_div_natCast]
  norm_cast

/-- The rounding of a whole number. -/
theorem round_mul_scale (u : Int) : (u * 2 ^ 72 + 2 ^ 71) / 2 ^ 72 = u := by omega

theorem clamp16_of_word (w : Word) : clamp16 w.toInt = w.toInt := by
  have hlo : -2 ^ 15 ≤ w.toInt := BitVec.le_toInt w
  have hhi : w.toInt < 2 ^ 15 := BitVec.toInt_lt
  unfold clamp16
  omega

/-! ## The round trip of an integer (R184) -/

/-- A word whose encoding is exact comes back. -/
theorem fpToInt_of_exact {w : Word} (h : fpScaled (intToFp w) = w.toInt * 2 ^ 72) : fpToInt (intToFp w) = w := by
  refine BitVec.eq_of_toInt_eq ?_
  rw [toInt_fpToInt, h, round_mul_scale, clamp16_of_word]

theorem fpScaled_intToFp (w : Word) :
    fpScaled (intToFp w) = w.toInt.sign * fpEncMagnitude (w.toInt.natAbs * 2 ^ 72) := by
  have hscale : (2 ^ 72 : Int).sign = 1 := by decide
  rw [intToFp_eq, fpScaled_fpEncode, Int.natAbs_mul, Int.sign_mul, hscale, Int.mul_one]
  rfl

/-- The encoded magnitude of a whole number of `l + 1` bits, at most 16. -/
theorem fpEncMagnitude_of_integer {a l : Nat} (hl : l ≤ 15) (hlo : 2 ^ l ≤ a) (hhi : a < 2 ^ (l + 1)) :
    fpEncMagnitude (a * 2 ^ 72) =
      min 255 ((a * 2 ^ 72 + 2 ^ (l + 64)) / 2 ^ (l + 65)) * 2 ^ (l + 65) := by
  refine fpEncMagnitude_of_bits (by omega) ?_ ?_
  · rw [show l + 64 + 8 = l + 72 by omega, pow_add]
    exact Nat.mul_le_mul_right _ hlo
  · rw [show l + 64 + 9 = l + 1 + 72 by omega, pow_add]
    exact Nat.mul_lt_mul_of_pos_right hhi (by positivity)

/-- At most 8 significant bits: the magnitude is a multiple of the unit of its last place, so rounding keeps it. -/
theorem fpEncMagnitude_of_short {k j l : Nat} (hk : k ≤ 255) (hl : l ≤ 15) (hlo : 2 ^ l ≤ k * 2 ^ j)
    (hhi : k * 2 ^ j < 2 ^ (l + 1)) : fpEncMagnitude (k * 2 ^ j * 2 ^ 72) = k * 2 ^ j * 2 ^ 72 := by
  have hlj : l < j + 8 := by
    refine (Nat.pow_lt_pow_iff_right (by decide : 1 < 2)).mp (hlo.trans_lt ?_)
    calc k * 2 ^ j < 256 * 2 ^ j := Nat.mul_lt_mul_of_pos_right (by omega) (by positivity)
      _ = 2 ^ (j + 8) := by ring
  obtain ⟨i, hi⟩ : ∃ i, j + 72 = i + (l + 65) := ⟨j + 7 - l, by omega⟩
  have hmul : k * 2 ^ j * 2 ^ 72 = k * 2 ^ i * 2 ^ (l + 65) := by
    rw [mul_assoc, ← pow_add, hi, pow_add, ← mul_assoc]
  have hquot : (k * 2 ^ j * 2 ^ 72 + 2 ^ (l + 64)) / 2 ^ (l + 65) = k * 2 ^ i := by
    rw [hmul, Nat.mul_comm, Nat.mul_add_div (by positivity)]
    rw [Nat.div_eq_of_lt (Nat.pow_lt_pow_right (by decide) (by omega)), Nat.add_zero]
  have hle : k * 2 ^ i < 256 := by
    refine Nat.lt_of_mul_lt_mul_right (a := 2 ^ (l + 65)) ?_
    calc k * 2 ^ i * 2 ^ (l + 65) = k * 2 ^ j * 2 ^ 72 := hmul.symm
      _ < 2 ^ (l + 1) * 2 ^ 72 := Nat.mul_lt_mul_of_pos_right hhi (by positivity)
      _ = 256 * 2 ^ (l + 65) := by ring
  rw [fpEncMagnitude_of_integer hl hlo hhi, hquot, Nat.min_eq_right (by omega), hmul]

/-- More than 8 bits: the encoded magnitude is a mantissa of 8 bits times a power of two, again a whole number. -/
theorem fpEncMagnitude_of_long {a i : Nat} (hi : i ≤ 8) (hlo : 2 ^ (i + 7) ≤ a) (hhi : a < 2 ^ (i + 8)) :
    ∃ m ≤ 255, fpEncMagnitude (a * 2 ^ 72) = m * 2 ^ i * 2 ^ 72 := by
  refine ⟨_, Nat.min_le_left 255 ((a * 2 ^ 72 + 2 ^ (i + 7 + 64)) / 2 ^ (i + 7 + 65)), ?_⟩
  rw [fpEncMagnitude_of_integer (by omega) hlo hhi, mul_assoc _ (2 ^ i), ← pow_add]

theorem natAbs_toInt_le (w : Word) : w.toInt.natAbs ≤ 32768 := by
  have hlo : -2 ^ 15 ≤ w.toInt := BitVec.le_toInt w
  have hhi : w.toInt < 2 ^ 15 := BitVec.toInt_lt
  omega

/-- A nonzero word's magnitude has at most 16 bits. -/
theorem bits_of_word {w : Word} (h : w.toInt ≠ 0) :
    ∃ l ≤ 15, 2 ^ l ≤ w.toInt.natAbs ∧ w.toInt.natAbs < 2 ^ (l + 1) := by
  have ha : w.toInt.natAbs ≠ 0 := Int.natAbs_ne_zero.mpr h
  refine ⟨w.toInt.natAbs.log2, Nat.le_of_lt_succ ((Nat.log2_lt ha).mpr ?_), Nat.log2_self_le ha, Nat.lt_log2_self⟩
  exact lt_of_le_of_lt (natAbs_toInt_le w) (by decide)

theorem fpToInt_intToFp_of_short {w : Word} {k j : Nat} (hk : k ≤ 255) (h : w.toInt.natAbs = k * 2 ^ j) :
    fpToInt (intToFp w) = w := by
  refine fpToInt_of_exact ?_
  rw [fpScaled_intToFp]
  by_cases hw : w.toInt = 0
  · rw [hw]; simp
  obtain ⟨l, hl, hlo, hhi⟩ := bits_of_word hw
  have hmagnitude : fpEncMagnitude (w.toInt.natAbs * 2 ^ 72) = w.toInt.natAbs * 2 ^ 72 := by
    rw [h] at hlo hhi ⊢
    exact fpEncMagnitude_of_short hk hl hlo hhi
  rw [hmagnitude]
  push_cast
  rw [← mul_assoc, Int.sign_mul_abs]

/-- A word that comes back has at most 8 significant bits: with fewer than 16 bits its encoded magnitude, a mantissa times
a power of two, does not saturate, and the only word of 16 bits is `-2 ^ 15`. -/
theorem short_of_fpToInt_intToFp {w : Word} (h : fpToInt (intToFp w) = w) :
    ∃ k j : Nat, k ≤ 255 ∧ w.toInt.natAbs = k * 2 ^ j := by
  by_cases hshort : w.toInt.natAbs ≤ 255
  · exact ⟨w.toInt.natAbs, 0, hshort, by simp⟩
  obtain ⟨l, hl, hlo, hhi⟩ := bits_of_word (w := w) (by omega)
  obtain ⟨i, rfl⟩ : ∃ i, l = i + 7 := by
    refine ⟨l - 7, ?_⟩
    by_contra hlt
    have hle : 2 ^ (l + 1) ≤ 2 ^ 7 := Nat.pow_le_pow_right (by decide) (by omega)
    omega
  obtain ⟨m, hm, hmagnitude⟩ := fpEncMagnitude_of_long (by omega) hlo hhi
  by_cases hi : i = 8
  · subst hi
    exact ⟨128, 8, by decide, le_antisymm (natAbs_toInt_le w) hlo⟩
  have hscaled : fpScaled (intToFp w) = w.toInt.sign * (m * 2 ^ i : Nat) * 2 ^ 72 := by
    rw [fpScaled_intToFp, hmagnitude, Nat.cast_mul (m * 2 ^ i), ← mul_assoc]
    rfl
  have hrounded : w.toInt = clamp16 (w.toInt.sign * (m * 2 ^ i : Nat)) := by
    conv_lhs => rw [← h, toInt_fpToInt, hscaled, round_mul_scale]
  have hbound : m * 2 ^ i ≤ 255 * 2 ^ 7 := Nat.mul_le_mul hm (Nat.pow_le_pow_right (by decide) (by omega))
  refine ⟨m, i, hm, ?_⟩
  unfold clamp16 at hrounded
  rcases lt_or_ge w.toInt 0 with hneg | hnonneg
  · rw [Int.sign_eq_neg_one_of_neg hneg] at hrounded
    omega
  · rw [Int.sign_eq_one_of_pos (by omega)] at hrounded
    omega

end Sys2Proof.Machine

open Sys2Proof Sys2Proof.Machine

/-- Settles O38: the exact sum commutes, the exact difference of a value with itself is 0, and flipping bit 15 negates
the value. -/
theorem floatAddAndSubtractLaws : Obligations.FloatAddAndSubtractLaws := by
  intro x y
  refine ⟨?comm, ?self, ?flip, fun hy => ?zero⟩
  case comm => rw [fpAdd_eq, fpAdd_eq, add_comm]
  case self => rw [fpSub_eq, sub_self, fpEncode_zero]
  case flip => rw [fpSub_eq, fpAdd_eq, fpScaled_flipSign, sub_eq_add_neg]
  case zero => rw [fpAdd_eq, fpScaled_of_mantissa_zero hy, add_zero]

/-- Settles O39: the rounding is the floor of the value plus one half, and its saturation fits a word. -/
theorem toIntegerRoundsAndSaturates : Obligations.ToIntegerRoundsAndSaturates := by
  intro w
  rw [floor_add_half]
  exact toInt_fpToInt w

/-- Settles O40, from the exact encoding of an integer of at most 8 significant bits, and the mantissa of a longer one. -/
theorem integerRoundTripIsExactToEightBits : Obligations.IntegerRoundTripIsExactToEightBits := fun _ =>
  ⟨short_of_fpToInt_intToFp, fun ⟨_, _, hk, h⟩ => fpToInt_intToFp_of_short hk h⟩

end
